-- ==== Sys2Proof/Word.lean ====
section
/-! DEFINITION. The word types of G711CC and the integer operators of 00_scope.md rules R7 and R8. -/

namespace Sys2Proof

/-- A byte: a companded code, a colour component, a byte of bus memory (R7, R35). -/
abbrev Byte := BitVec 8

/-- A 16-bit register field or the raw bits of an int16 sample (R7, R22). -/
abbrev Half := BitVec 16

/-- A register, a command word or a bus address (R17, R36, R49). -/
abbrev Word := BitVec 32

end Sys2Proof
end

