-- ==== Sys2Proof/Syntax.lean ====
section
/-! DEFINITION. The commands of G711CC: one constructor for each row of the opcode table (30_encoding.md R51). An
operand has the width of its field of the command word (R50), so no constructor can hold a value no word encodes. -/

namespace Sys2Proof

/-- A command (R51). -/
inductive Instr where
  /-- `NOP` (R63). -/
  | nop
  /-- `ULAW2LIN` (R68): µ-law code to linear sample. -/
  | ulaw2lin (code : Byte)
  /-- `ALAW2LIN` (R69): A-law code to linear sample. -/
  | alaw2lin (code : Byte)
  /-- `LIN2ALAW` (R70): the raw bits of an int16 sample to an A-law code. -/
  | lin2alaw (sample : Half)
  /-- `LIN2ULAW` (R71): the raw bits of an int16 sample to a µ-law code. -/
  | lin2ulaw (sample : Half)
  /-- `PIX_RGB2YCC` (R82). -/
  | pixRgb2ycc (r g b : Byte)
  /-- `PIX_RGB2YCC_HP` (R83). -/
  | pixRgb2yccHp (r g b : Byte)
  /-- `PIX_YCC2RGB` (R84). -/
  | pixYcc2rgb (y cb cr : Byte)
  /-- `FRM_RGB2YCC` (R92, R93): `depth` and `subs` as the F layout holds them, supported or not (R55). -/
  | frmRgb2ycc (depth : Byte) (subs : BitVec 2)
  /-- `FRM_YCC2RGB` (R94). -/
  | frmYcc2rgb (depth : Byte) (subs : BitVec 2)
  deriving DecidableEq, Repr

end Sys2Proof
end

