-- ==== Sys2Proof/Decode.lean ====
section
/-! DEFINITION. The decoder of 30_encoding.md R52, total on every 32-bit word, and the encoder, written from the layouts
of R50 and the opcodes of R51. -/

namespace Sys2Proof

/-- Why a word is ILLEGAL. The block records only that it is (R100, R101). -/
inductive Illegal where
  /-- The opcode is not assigned (R53). -/
  | unassignedOpcode
  /-- A bit marked "must be 0" is 1 (R54). -/
  | reservedBitSet
  deriving DecidableEq, Repr

/-- What a word decodes to (R52). -/
inductive Decoded where
  | command (i : Instr)
  | illegal (why : Illegal)
  deriving DecidableEq, Repr

/-- The command `i`, provided its "must be 0" bits `z` are all 0 (R50, R54). -/
def whenClear {n : Nat} (z : BitVec n) (i : Instr) : Decoded :=
  if z = 0#n then .command i else .illegal .reservedBitSet

/-- `decode(w)` of R52. -/
def decode (w : Word) : Decoded :=
  match (w.extractLsb' 24 8).toNat with
  | 0x00 => whenClear (w.extractLsb' 0 24) .nop
  | 0x01 => whenClear (w.extractLsb' 8 16) (.ulaw2lin (w.extractLsb' 0 8))
  | 0x02 => whenClear (w.extractLsb' 8 16) (.alaw2lin (w.extractLsb' 0 8))
  | 0x03 => whenClear (w.extractLsb' 16 8) (.lin2alaw (w.extractLsb' 0 16))
  | 0x04 => whenClear (w.extractLsb' 16 8) (.lin2ulaw (w.extractLsb' 0 16))
  | 0x10 => .command (.pixRgb2ycc (w.extractLsb' 16 8) (w.extractLsb' 8 8) (w.extractLsb' 0 8))
  | 0x11 => .command (.pixRgb2yccHp (w.extractLsb' 16 8) (w.extractLsb' 8 8) (w.extractLsb' 0 8))
  | 0x12 => .command (.pixYcc2rgb (w.extractLsb' 16 8) (w.extractLsb' 8 8) (w.extractLsb' 0 8))
  | 0x20 => whenClear (w.extractLsb' 10 14) (.frmRgb2ycc (w.extractLsb' 0 8) (w.extractLsb' 8 2))
  | 0x21 => whenClear (w.extractLsb' 10 14) (.frmYcc2rgb (w.extractLsb' 0 8) (w.extractLsb' 8 2))
  | _ => .illegal .unassignedOpcode

/-- The instruction of a word, or none where the decoder refuses it. -/
def Decoded.instr? : Decoded → Option Instr
  | .command i => some i
  | .illegal _ => none

/-- The word of a command: `{OPC, OPD}` (R49) with the layouts of R50 and the opcodes of R51. -/
def encode : Instr → Word
  | .nop => 0x00#8 ++ 0#24
  | .ulaw2lin code => 0x01#8 ++ (0#16 ++ code)
  | .alaw2lin code => 0x02#8 ++ (0#16 ++ code)
  | .lin2alaw sample => 0x03#8 ++ (0#8 ++ sample)
  | .lin2ulaw sample => 0x04#8 ++ (0#8 ++ sample)
  | .pixRgb2ycc r g b => 0x10#8 ++ (r ++ g ++ b)
  | .pixRgb2yccHp r g b => 0x11#8 ++ (r ++ g ++ b)
  | .pixYcc2rgb y cb cr => 0x12#8 ++ (y ++ cb ++ cr)
  | .frmRgb2ycc depth subs => 0x20#8 ++ (0#14 ++ subs ++ depth)
  | .frmYcc2rgb depth subs => 0x21#8 ++ (0#14 ++ subs ++ depth)

/-- The command the decoder reads from a row of the opcode table: the `nbits` low bits of `w`, every bit above them 0. A
command is one 32-bit word (R49). -/
def decodeTableWord (nbits w : Nat) : Option Instr := (decode (BitVec.ofNat 32 (w % 2 ^ nbits))).instr?

end Sys2Proof
end

