-- ==== Sys2Proof/Config.lean ====
section
/-! DEFINITION. The parameters of a model instance (00_scope.md rule R6), the constants of the interface, and the free
values the spec tells a model to draw (93_implementation_defined.md, treatment "any value"). -/

namespace Sys2Proof

/-- `CHANNEL_ORDER`: the byte order of a pixel in bus memory (R6, R86; D23). -/
inductive ChannelOrder where
  | bgr
  | rgb
  deriving DecidableEq, Repr

/-- A parameter tuple (r, g, b, k, d) of a 4:4:4 chroma formula (R79; D21). -/
structure Chroma444 where
  r : Int
  g : Int
  b : Int
  k : Int
  d : Int
  deriving DecidableEq, Repr

/-- A run of bus addresses: `len` bytes from `base` on. -/
structure AddrRange where
  base : Nat
  len : Nat
  deriving DecidableEq, Repr

/-- The parameters of one model instance (R6). They are fixed for its life: no step writes them, reset included (R15,
R109). `absent` and `windowBase` are the platform's: the addresses its memory does not admit (R36), and the address of
the register window on the register bus (20_memory.md R37, 93_implementation_defined.md item 19). -/
structure Params where
  channelOrder : ChannelOrder
  cb444 : Chroma444
  cr444 : Chroma444
  absent : List AddrRange
  windowBase : Nat
  deriving DecidableEq, Repr

/-- The spec's default tuple for `CB444` (R79). -/
def Params.defaultCb444 : Chroma444 := ⟨-37797, -74203, 112000, 32767500, 255000⟩

/-- The spec's default tuple for `CR444` (R79). -/
def Params.defaultCr444 : Chroma444 := ⟨112000, -93786, -18214, 32767500, 255000⟩

/-- The spec's defaults (R6, R79, R86), on a platform whose memory admits every address and whose register window stands
at 0 (DESIGN CHOICE, unsafe: notes/assumptions/2.md). -/
def Params.default : Params := ⟨.bgr, defaultCb444, defaultCr444, [], 0⟩

/-- Free values (93 items 9 to 12): the byte drawn for address `a` at the `n`-th draw. Nothing is known of it
(notes/assumptions/11.md). -/
opaque Config.freeByte : Nat → Nat → Byte

/-- The number of byte addresses of bus memory: `2^ADDR_W`, `ADDR_W` = 32 (R6, R30). -/
def Config.addressSpace : Nat := 4294967296

end Sys2Proof
end

