-- ==== Sys2Proof/Machine/State.lean ====
section
/-! DEFINITION. The state of the model: the registers and JOB of G711CC (10_state.md), bus memory, the host's remaining
accesses, the scheduler's choices, and the model's own bookkeeping for races and free values. -/

namespace Sys2Proof.Machine

/-- The error codes of `STATUS.ERR` (60_exceptions.md R100). Codes 4 to 15 are never produced, so there is none. -/
inductive ErrCode where
  | none
  | illegalCmd
  | invalidArgument
  | unsupportedFormat
  deriving DecidableEq, Repr

/-- The registers of the window (10_state.md R17), the three reserved offsets as one. -/
inductive Reg where
  | cmd
  | status
  | result
  | reserved
  | rgbAddr
  | rgbStride
  | width
  | height
  | yAddr
  | yStride
  | cbAddr
  | cbStride
  | crAddr
  | crStride
  deriving DecidableEq, Repr

/-- The ten descriptor registers (R21 to R23). -/
structure Desc where
  rgbAddr : Word
  rgbStride : Word
  width : Half
  height : Half
  yAddr : Word
  yStride : Word
  cbAddr : Word
  cbStride : Word
  crAddr : Word
  crStride : Word
  deriving DecidableEq, Repr

/-- Bits per RGB pixel (R3). -/
inductive Depth where
  | d24
  | d32
  deriving DecidableEq, Repr

/-- Chroma subsampling (R3). -/
inductive Subs where
  | s420
  | s444
  deriving DecidableEq, Repr

/-- The frame operation of a job (R28). -/
inductive FrameOp where
  | rgb2ycc
  | ycc2rgb
  deriving DecidableEq, Repr

/-- The latched job record `JOB` (R28): the operation, its format, and the descriptor at the moment of acceptance. -/
structure Job where
  op : FrameOp
  depth : Depth
  subs : Subs
  desc : Desc
  deriving DecidableEq, Repr

/-- A region `(A, S, N, L)` of bus memory (43_color_frame.md R88). -/
structure Region where
  base : Nat
  stride : Nat
  rows : Nat
  rowBytes : Nat
  deriving DecidableEq, Repr

/-- Bus memory (R30): address and byte pairs, in the canonical form `Memory.wf`. An unlisted address reads 0
(DESIGN CHOICE, unsafe: notes/assumptions/3.md). -/
structure Memory where
  cells : List Host.Cell
  deriving DecidableEq, Repr

/-- The canonical form of memory: addresses strictly rising, all inside the address space, and no byte listed that an
unlisted address reads as. -/
abbrev Memory.wf (m : Memory) : Prop :=
  m.cells.Pairwise (fun x y => x.1 < y.1) ∧ ∀ c ∈ m.cells, c.2 ≠ 0#8 ∧ c.1 < Config.addressSpace

/-- Memory with nothing listed. -/
def Memory.empty : Memory := ⟨[]⟩

/-- The width of a register access (20_memory.md R31, R32). -/
inductive AccessSize where
  | byte
  | half
  | word
  deriving DecidableEq, Repr

/-- One operation of the host agent (00_scope.md R10, 30_encoding.md R58): an access to the register bus at an address
(20_memory.md R31, R37), the `poll` loop of R59 at an address, or an access to one byte of bus memory. The register bus and
bus memory are two address spaces (notes/assumptions/20.md). -/
inductive HostOp where
  | write (size : AccessSize) (addr : Nat) (data : Word)
  | read (size : AccessSize) (addr : Nat)
  | poll (addr : Nat) (mask value : Word)
  | memWrite (addr : Word) (data : Byte)
  | memRead (addr : Word)
  deriving DecidableEq, Repr

/-- A value the host has read (R58's host variables): from the register at an offset of the
window, or from bus memory. -/
inductive Reply where
  | reg (offset : Nat) (value : Word)
  | mem (addr : Word) (value : Byte)
  deriving DecidableEq, Repr

/-- Who moves next: the host, the frame engine (R10), or the platform's reset (R109). -/
inductive Turn where
  | host
  | engine
  | reset
  deriving DecidableEq, Repr

/-- The state. The registers of R17 and `JOB` (R28) are the block's; the rest is the world around it and the model's own.
`STATUS.BUSY` is `job.isSome`: JOB is valid exactly while BUSY is 1 (R28; notes/assumptions/9.md). -/
structure State where
  /-- `STATUS.OVR` (R19). -/
  ovr : Bool
  /-- `STATUS.ERR` (R19). -/
  err : ErrCode
  /-- `RESULT` (R20). -/
  result : Word
  /-- The descriptor registers (R21 to R23). -/
  desc : Desc
  /-- `JOB` (R28): the frame command in flight, none while BUSY is 0. -/
  job : Option Job
  /-- The host has written a region byte of the job in flight (20_memory.md R42; notes/assumptions/12.md). -/
  raced : Bool
  /-- Bus memory (R15, R30). -/
  mem : Memory
  /-- The instance's parameters (R6): never written. -/
  params : Params
  /-- The host's accesses still to come, in program order (R58, R60). -/
  host : List HostOp
  /-- The scheduler's choices still to come (R96, R117). -/
  turns : List Turn
  /-- What the host has read, newest first. -/
  replies : List Reply
  /-- Destination regions written by a completed job for which the host has not yet read BUSY = 0 (R41, R115). -/
  unseen : List Region
  /-- How many draws of free values have been made. -/
  draws : Nat
  deriving DecidableEq, Repr

/-- Why the machine stops with a fault. -/
inductive Fault where
  /-- The frame engine is stuck: the platform's memory does not admit an address of the job (R36). Raised by the engine's
  completion step only. Safe: nothing is proved of what follows. -/
  | engineStuck
  deriving DecidableEq, Repr

/-- Why the model refuses a step. -/
inductive Refusal where
  /-- An instruction without a meaning. No arm uses it. Safe. -/
  | notModelled (mnemonic : String)
  /-- A register access that is not an aligned 32-bit access inside the window (R32): the host has no step. Raised by a
  host turn. Safe. -/
  | registerAccess
  /-- A host access to a bus address the platform's memory does not admit (R36). Raised by a host turn. Safe. -/
  | memoryAccess
  /-- `CB444` or `CR444` is not admissible (R79): a model refuses such a tuple. Raised where a 4:4:4 formula would be
  used, by PIX_RGB2YCC_HP and by the completion of a 4:4:4 frame. Safe. -/
  | inadmissibleChroma
  deriving DecidableEq, Repr

/-- The descriptor after reset (R109). -/
def Desc.reset : Desc := ⟨0, 0, 0, 0, 0, 0, 0, 0, 0, 0⟩

/-- The state after reset (R109): every register 0, no job; nothing listed in memory, no access pending, no choice of the
scheduler pending, and the default parameters (notes/assumptions/2.md, 3.md, 8.md). -/
def State.reset : State where
  ovr := false
  err := .none
  result := 0
  desc := Desc.reset
  job := none
  raced := false
  mem := Memory.empty
  params := Params.default
  host := []
  turns := []
  replies := []
  unseen := []
  draws := 0

/-- The outcome of a step of this machine. -/
abbrev Outcome := Host.Outcome State Fault Refusal

end Sys2Proof.Machine
end

