-- ==== Sys2Proof/Machine/Flags.lean ====
section
/-! DEFINITION. `STATUS` (10_state.md R19, R27): its word, and what acceptance and a dropped write do to its bits. The
block has no arithmetic condition codes (R27). -/

namespace Sys2Proof.Machine

/-- The code of an error (60_exceptions.md R100). -/
def errCode : ErrCode → BitVec 4
  | .none => 0
  | .illegalCmd => 1
  | .invalidArgument => 2
  | .unsupportedFormat => 3

/-- `STATUS.BUSY`: 1 exactly while JOB is valid (R19, R28). -/
def State.busy (s : State) : Bool := s.job.isSome

/-- The word a read of `STATUS` returns: BUSY bit 0, OVR bit 1, ERR bits 7:4, the rest 0 (R19). -/
def statusWord (s : State) : Word :=
  0#24 ++ errCode s.err ++ 0#2 ++ BitVec.ofBool s.ovr ++ BitVec.ofBool s.busy

/-- Acceptance of a command: `OVR <- 0`, `ERR <- 0` (40_command.md R61). -/
def State.accept (s : State) : State := { s with ovr := false, err := .none }

/-- A `CMD` write dropped because BUSY is 1: `OVR <- 1`, nothing else (R62). -/
def State.drop (s : State) : State := { s with ovr := true }

end Sys2Proof.Machine
end

