-- ==== Sys2Proof/Machine/Operands.lean ====
section
/-! DEFINITION. The notation of 00_scope.md R7 and R8 (bit fields, the integer operators), the operand values of
30_encoding.md R50, and the formats of `RESULT`. -/

namespace Sys2Proof.Machine

/-- `v[hi:lo]` as an unsigned number (R7). -/
def bits (v hi lo : Nat) : Nat := v / 2 ^ lo % 2 ^ (hi - lo + 1)

/-- `~b` on a byte: `255 - b` (R8). -/
def invByte (b : Nat) : Nat := 255 - b

/-- `a >> n` on integers: `floor(a / 2^n)` (R8, D20). -/
def asr (a : Int) (n : Nat) : Int := a / 2 ^ n

/-- `a / b` truncated toward zero (R8). -/
def truncDiv (a b : Int) : Int := Int.tdiv a b

/-- `clamp8(v) = min(max(v, 0), 255)` (R8). -/
def clamp8 (v : Int) : Int := min (max v 0) 255

/-- An integer cut to a byte. -/
def toByte (v : Int) : Byte := BitVec.ofInt 8 v

/-- The sample operand of layout S16: `x = sext_16(OPD[15:0])` as an integer (R50). -/
def sampleValue (raw : Half) : Int := raw.toInt

/-- The `depth` operand of layout F as a supported depth, in bits per pixel (R50, R90). -/
def depthOf (operand : Byte) : Option Depth :=
  if operand = 24#8 then some .d24 else if operand = 32#8 then some .d32 else none

/-- The `subs` operand of layout F as a supported subsampling: 0 is 4:2:0 and 1 is 4:4:4 (R50, R90). -/
def subsOf (operand : BitVec 2) : Option Subs :=
  if operand = 0#2 then some .s420 else if operand = 1#2 then some .s444 else none

/-- Bytes per RGB pixel: `bpp = depth/8` (R86). -/
def bytesPerPixel : Depth → Nat
  | .d24 => 3
  | .d32 => 4

/-- `sext_32(v)` for an int16 result (R50). -/
def sext32 (v : Int) : Word := BitVec.ofInt 32 v

/-- `zext_32(c)` for a code byte (R50). -/
def zext32 (c : Byte) : Word := c.setWidth 32

/-- `{0x00, a, b, c}` (R50). -/
def pack3 (a b c : Byte) : Word := 0#8 ++ a ++ b ++ c

end Sys2Proof.Machine
end

