-- ==== Sys2Proof/Machine/Ops.lean ====
section
/-! DEFINITION. The named operations over memory and registers; issuing a command (40_command.md R61); and `raise Error`,
the one operation by which a command ends in an error (00_scope.md R9, 60_exceptions.md R103). There is no return from an
error (R104): the next acceptance clears the code. -/

namespace Sys2Proof.Machine

/-! ### Bus memory -/

/-- The byte a list of cells gives an address: the first cell's of that address, 0 for an unlisted one. -/
def readCells : List Host.Cell → Nat → Byte
  | [], _ => 0
  | (k, v) :: rest, a => if k = a then v else readCells rest a

/-- A cell put in front of the first one with a higher address. -/
def insertCell (a : Nat) (b : Byte) : List Host.Cell → List Host.Cell
  | [] => [(a, b)]
  | (k, v) :: rest => if a < k then (a, b) :: (k, v) :: rest else (k, v) :: insertCell a b rest

/-- `MemRead(a, 1)` (R9). -/
def Memory.read (m : Memory) (a : Nat) : Byte := readCells m.cells a

/-- `MemWrite(a, 1, b)` (R9), in canonical form: no cell lists the value an unlisted address reads as. -/
def Memory.write (m : Memory) (a : Nat) (b : Byte) : Memory :=
  let others := m.cells.filter (fun c => c.1 ≠ a)
  ⟨if b = 0 then others else insertCell a b others⟩

/-- Byte writes, one after another. -/
def Memory.writeAll (m : Memory) (cells : List Host.Cell) : Memory :=
  cells.foldl (fun m c => m.write c.1 c.2) m

/-- The platform's memory admits the address: it lies in the address space and in no absent range (20_memory.md R36). -/
def admits (p : Params) (a : Nat) : Bool :=
  a < Config.addressSpace && !p.absent.any (fun r => r.base ≤ a && a < r.base + r.len)

/-! ### Regions (43_color_frame.md R88) -/

/-- The bytes of the region: `A + i·S + j` for `0 ≤ i < N`, `0 ≤ j < L`, row by row. -/
def Region.addrs (r : Region) : List Nat :=
  (List.range r.rows).flatMap fun i => (List.range r.rowBytes).map fun k => r.base + i * r.stride + k

/-- The address is a byte of the region. -/
def Region.contains (r : Region) (a : Nat) : Bool :=
  (List.range r.rows).any fun i => r.base + i * r.stride ≤ a && a < r.base + i * r.stride + r.rowBytes

/-- The address is a byte of one of the regions. -/
def inRegions (rs : List Region) (a : Nat) : Bool := rs.any fun r => r.contains a

/-- Two regions have a byte in common. -/
def Region.meets (r q : Region) : Bool := r.addrs.any q.contains

/-- The cells that give byte `k` of row `i` of the region the value `f i k`. -/
def Region.fill (r : Region) (f : Nat → Nat → Byte) : List Host.Cell :=
  (List.range r.rows).flatMap fun i => (List.range r.rowBytes).map fun k => (r.base + i * r.stride + k, f i k)

/-- The cells that give every byte of the regions the platform's memory admits a free value, that of draw `n`
(notes/assumptions/11.md). -/
def freeCells (p : Params) (n : Nat) (rs : List Region) : List Host.Cell :=
  ((rs.flatMap Region.addrs).filter (admits p)).map fun a => (a, Config.freeByte n a)

/-! ### Registers (10_state.md R17) -/

/-- The register at a byte offset of the window; none for an offset that is no multiple of 4 or lies beyond 0x3F. -/
def regAt : Nat → Option Reg
  | 0x00 => some .cmd
  | 0x04 => some .status
  | 0x08 => some .result
  | 0x0C => some .reserved
  | 0x10 => some .rgbAddr
  | 0x14 => some .rgbStride
  | 0x18 => some .width
  | 0x1C => some .height
  | 0x20 => some .yAddr
  | 0x24 => some .yStride
  | 0x28 => some .cbAddr
  | 0x2C => some .cbStride
  | 0x30 => some .crAddr
  | 0x34 => some .crStride
  | 0x38 => some .reserved
  | 0x3C => some .reserved
  | _ => none

/-- The offset in the register window of an address on the register bus, from the base the platform has chosen (20_memory.md
R37). None below the window; an offset beyond the window has no register. -/
def windowOffset (q : Params) (addr : Nat) : Option Nat :=
  if q.windowBase ≤ addr then some (addr - q.windowBase) else none

/-- The register a legal access names: an aligned 32-bit access inside the window (20_memory.md R31). None for any
other access (R32). -/
def accessedReg (q : Params) (size : AccessSize) (addr : Nat) : Option Reg :=
  match size with
  | .word => (windowOffset q addr).bind regAt
  | .byte => none
  | .half => none

/-- What a read of a register returns (R18 to R24). -/
def regRead (s : State) : Reg → Word
  | .cmd => 0
  | .status => statusWord s
  | .result => s.result
  | .reserved => 0
  | .rgbAddr => s.desc.rgbAddr
  | .rgbStride => s.desc.rgbStride
  | .width => s.desc.width.setWidth 32
  | .height => s.desc.height.setWidth 32
  | .yAddr => s.desc.yAddr
  | .yStride => s.desc.yStride
  | .cbAddr => s.desc.cbAddr
  | .cbStride => s.desc.cbStride
  | .crAddr => s.desc.crAddr
  | .crStride => s.desc.crStride

/-- The descriptor after a write of `w` to a register: `WIDTH` and `HEIGHT` keep bits 15:0 (R22); a write to a register
that is no descriptor register leaves it (R19, R20, R24). -/
def descWrite (d : Desc) (r : Reg) (w : Word) : Desc :=
  match r with
  | .cmd => d
  | .status => d
  | .result => d
  | .reserved => d
  | .rgbAddr => { d with rgbAddr := w }
  | .rgbStride => { d with rgbStride := w }
  | .width => { d with width := w.setWidth 16 }
  | .height => { d with height := w.setWidth 16 }
  | .yAddr => { d with yAddr := w }
  | .yStride => { d with yStride := w }
  | .cbAddr => { d with cbAddr := w }
  | .cbStride => { d with cbStride := w }
  | .crAddr => { d with crAddr := w }
  | .crStride => { d with crStride := w }

/-! ### Updates of the state -/

/-- `RESULT <- w` (R20). -/
def State.setResult (s : State) (w : Word) : State := { s with result := w }

/-- The descriptor registers take a new value (R25). -/
def State.setDesc (s : State) (d : Desc) : State := { s with desc := d }

/-- `JOB <- j` and `BUSY <- 1` (43_color_frame.md R91). -/
def State.latch (s : State) (j : Job) : State := { s with job := some j, raced := false }

/-- The host has read a value. -/
def State.reply (s : State) (r : Reply) : State := { s with replies := r :: s.replies }

/-- Bus memory takes a new value. -/
def State.setMem (s : State) (m : Memory) : State := { s with mem := m }

/-- A host write has hit a region byte of the job in flight (R42). -/
def State.markRaced (s : State) : State := { s with raced := true }

/-- `BUSY <- 0`: no job is in flight any more (R96, R109). -/
def State.endJob (s : State) : State := { s with job := none, raced := false }

/-- One draw of free values has been made. -/
def State.countDraw (s : State) : State := { s with draws := s.draws + 1 }

/-- The regions whose new bytes the host is not yet sure to see (R41). -/
def State.setUnseen (s : State) (rs : List Region) : State := { s with unseen := rs }

/-- The host's accesses still to come. -/
def State.setHost (s : State) (ops : List HostOp) : State := { s with host := ops }

/-- The scheduler's choices still to come. -/
def State.setTurns (s : State) (ts : List Turn) : State := { s with turns := ts }

/-- Every register at its reset value, no job in flight (R109). -/
def State.clearRegs (s : State) : State :=
  { s with ovr := false, err := .none, result := 0, desc := Desc.reset, job := none, raced := false }

/-- `raise Error(code)`: `STATUS.ERR <- code`, nothing else (R9, R103). -/
def State.raise (s : State) (code : ErrCode) : State := { s with err := code }

/-- The step of R61 around a command's own effect: while BUSY is 1 the write is dropped (R62); otherwise the command is
accepted and its effect follows. -/
def issue (s : State) (effect : State → Outcome) : Outcome :=
  if s.busy then .next s.drop else effect s.accept

/-- An immediate command (R61): `RESULT` takes its value. -/
def immediate (s : State) (w : Word) : Outcome := issue s fun t => .next (t.setResult w)

/-- A word that decodes to ILLEGAL, once written to `CMD`: `raise Error(ILLEGAL_CMD)` (R61, R100). -/
def issueIllegal (s : State) : Outcome := issue s fun t => .next (t.raise .illegalCmd)

end Sys2Proof.Machine
end

