-- ==== Sys2Proof/Machine/Command.lean ====
section
/-! DEFINITION. `NOP` (40_command.md R63). -/

namespace Sys2Proof.Machine

/-- `NOP` (R63): the accepted-command prefix of R61, then nothing. -/
def execNop (s : State) : Outcome := issue s fun t => .next t

end Sys2Proof.Machine
end

