-- ==== Sys2Proof/Machine/Compander.lean ====
section
/-! DEFINITION. The compander unit CU (41_compander.md): the four transforms as pure functions on integers, step by step
as R68 to R71 give them, and the four commands. -/

namespace Sys2Proof.Machine

/-- `BIAS` = 0x84 (R67). -/
def bias : Nat := 0x84

/-- `UEND[0..7]`, the µ-law segment-end thresholds (R67). -/
def ulawSegmentEnds : List Nat := [0x3F, 0x7F, 0xFF, 0x1FF, 0x3FF, 0x7FF, 0xFFF, 0x1FFF]

/-- `ulaw2lin(code)` (R68). -/
def ulawToLinear (code : Byte) : Int :=
  let u := invByte code.toNat
  let e := bits u 6 4
  let m := bits u 3 0
  let t : Int := ((m <<< 3 + bias) <<< e : Nat)
  if bits u 7 7 = 1 then bias - t else t - bias

/-- `alaw2lin(code)` (R69). -/
def alawToLinear (code : Byte) : Int :=
  let a := code.toNat ^^^ 0x55
  let e := bits a 6 4
  let m := bits a 3 0
  let t := m <<< 4
  let t : Int := (if e = 0 then t + 8 else if e = 1 then t + 0x108 else (t + 0x108) <<< (e - 1) : Nat)
  if bits a 7 7 = 1 then t else -t

/-- The position at which the scan of R70 ends: the most significant set bit of `mag` among bits 11 to 5, or 4. -/
def alawScan (mag : Nat) : Nat := ([11, 10, 9, 8, 7, 6, 5].find? fun p => mag.testBit p).getD 4

/-- `lin2alaw(x)` (R70). -/
def linearToALaw (x : Int) : Byte :=
  let s := if x ≥ 0 then 0x80 else 0x00
  let mag := min x.natAbs 0xFFF
  let e := alawScan mag - 4
  let mant := (mag >>> (if e = 0 then 1 else e)) &&& 0xF
  BitVec.ofNat 8 ((s ||| (e <<< 4) ||| mant) ^^^ 0x55)

/-- `lin2ulaw(x)` (R71). -/
def linearToULaw (x : Int) : Byte :=
  let mask := if x < 0 then 0x7F else 0xFF
  let mag := min x.natAbs 8159 + bias >>> 2
  let c := match ulawSegmentEnds.findIdx? (fun e => mag ≤ e) with
    | none => 0x7F ^^^ mask
    | some seg => ((seg <<< 4) ||| ((mag >>> (seg + 1)) &&& 0xF)) ^^^ mask
  BitVec.ofNat 8 c

/-- `ULAW2LIN` (R68). -/
def execUlaw2lin (code : Byte) (s : State) : Outcome := immediate s (sext32 (ulawToLinear code))

/-- `ALAW2LIN` (R69). -/
def execAlaw2lin (code : Byte) (s : State) : Outcome := immediate s (sext32 (alawToLinear code))

/-- `LIN2ALAW` (R70). -/
def execLin2alaw (sample : Half) (s : State) : Outcome := immediate s (zext32 (linearToALaw (sampleValue sample)))

/-- `LIN2ULAW` (R71). -/
def execLin2ulaw (sample : Half) (s : State) : Outcome := immediate s (zext32 (linearToULaw (sampleValue sample)))

end Sys2Proof.Machine
end

