-- ==== Sys2Proof/Machine/Pixel.lean ====
section
/-! DEFINITION. The pixel datapath of XU (42_color_pixel.md): the per-pixel functions of R78 to R80 on integers, and the
three PIX commands. -/

namespace Sys2Proof.Machine

/-- A pixel's R, G and B bytes. -/
structure Rgb where
  r : Byte
  g : Byte
  b : Byte
  deriving DecidableEq, Repr

/-- A pixel's Y, Cb and Cr bytes. -/
structure Ycc where
  y : Byte
  cb : Byte
  cr : Byte
  deriving DecidableEq, Repr

/-- The weighted sum of a pixel's channels. -/
def weigh (p : Rgb) (wr wg wb : Int) : Int := wr * p.r.toNat + wg * p.g.toNat + wb * p.b.toNat

/-- `Y601` (R78). -/
def y601 (p : Rgb) : Int := asr (weigh p 66 129 25 + 128) 8 + 16

/-- `Cb601` (R78, with the labels of 90_conflicts.md C4). -/
def cb601 (p : Rgb) : Int := asr (weigh p (-38) (-74) 112 + 128) 8 + 128

/-- `Cr601` (R78, with the labels of 90_conflicts.md C4). -/
def cr601 (p : Rgb) : Int := asr (weigh p 112 (-94) (-18) + 128) 8 + 128

/-- `Y444` (R79). -/
def y444 (p : Rgb) : Int := truncDiv (weigh p 65481 128553 24966 + 4207500) 255000

/-- `Cb444` or `Cr444` with its parameter tuple (R79). -/
def chroma444 (t : Chroma444) (p : Rgb) : Int := truncDiv (weigh p t.r t.g t.b + t.k) t.d

/-- A parameter tuple is admissible (R79): d > 0, and over all pixels the numerator is at least 0 and the quotient at most
255. The numerator is linear, so its extremes are at the channels' extremes (`chromaAdmissible_iff`). -/
def chromaAdmissible (t : Chroma444) : Bool :=
  0 < t.d &&
  0 ≤ t.k + 255 * (min t.r 0 + min t.g 0 + min t.b 0) &&
  truncDiv (t.k + 255 * (max t.r 0 + max t.g 0 + max t.b 0)) t.d ≤ 255

/-- Both 4:4:4 chroma tuples of the instance are admissible (R79). -/
def paramsAdmissible (p : Params) : Bool := chromaAdmissible p.cb444 && chromaAdmissible p.cr444

/-- A pixel through the 8-bit BT.601 forward functions (R78). -/
def rgbToYcc601 (p : Rgb) : Ycc := ⟨toByte (y601 p), toByte (cb601 p), toByte (cr601 p)⟩

/-- A pixel through the 4:4:4 functions (R79). -/
def rgbToYcc444 (q : Params) (p : Rgb) : Ycc :=
  ⟨toByte (y444 p), toByte (chroma444 q.cb444 p), toByte (chroma444 q.cr444 p)⟩

/-- `YCC2RGB` (R80). -/
def yccToRgb (p : Ycc) : Rgb :=
  let c : Int := p.y.toNat - 16
  let d : Int := p.cb.toNat - 128
  let e : Int := p.cr.toNat - 128
  ⟨toByte (clamp8 (asr (298 * c + 409 * e + 128) 8)),
   toByte (clamp8 (asr (298 * c - 100 * d - 208 * e + 128) 8)),
   toByte (clamp8 (asr (298 * c + 516 * d + 128) 8))⟩

/-- `{0x00, Y, Cb, Cr}` (R50). -/
def packYcc (p : Ycc) : Word := pack3 p.y p.cb p.cr

/-- `{0x00, R, G, B}` (R50). -/
def packRgb (p : Rgb) : Word := pack3 p.r p.g p.b

/-- `PIX_RGB2YCC` (R82). -/
def execPixRgb2ycc (r g b : Byte) (s : State) : Outcome := immediate s (packYcc (rgbToYcc601 ⟨r, g, b⟩))

/-- `PIX_RGB2YCC_HP` (R83). With an inadmissible parameter tuple the model refuses (R79). -/
def execPixRgb2yccHp (r g b : Byte) (s : State) : Outcome :=
  if s.busy || paramsAdmissible s.params then immediate s (packYcc (rgbToYcc444 s.params ⟨r, g, b⟩))
  else .refused .inadmissibleChroma

/-- `PIX_YCC2RGB` (R84). -/
def execPixYcc2rgb (y cb cr : Byte) (s : State) : Outcome := immediate s (packRgb (yccToRgb ⟨y, cb, cr⟩))

end Sys2Proof.Machine
end

