-- ==== Sys2Proof/Machine/Frame.lean ====
section
/-! DEFINITION. The frame commands of XU (43_color_frame.md): the regions of a job (R88), the checks at acceptance (R89,
R90), the latch (R91), the bytes a job writes (R92 to R94), and the completion step of the frame engine (R96, R97). -/

namespace Sys2Proof.Machine

/-! ### Regions of a job (R88) -/

/-- The picture's width in pixels. -/
def Job.w (j : Job) : Nat := j.desc.width.toNat

/-- The picture's height in pixels. -/
def Job.h (j : Job) : Nat := j.desc.height.toNat

/-- Bytes in a row of the RGB region: `W·depth/8` for the forward commands, `3·W` for the inverse (R88). -/
def Job.rgbRowBytes (j : Job) : Nat :=
  match j.op with
  | .rgb2ycc => j.w * bytesPerPixel j.depth
  | .ycc2rgb => 3 * j.w

/-- The job's chroma planes have half size: 4:2:0, or the inverse, which is 4:2:0 only (R88). -/
def Job.halfChroma (j : Job) : Bool := j.op = .ycc2rgb || j.subs = .s420

/-- Rows of a chroma region (R88). -/
def Job.chromaRows (j : Job) : Nat := if j.halfChroma then j.h / 2 else j.h

/-- Bytes in a row of a chroma region (R88). -/
def Job.chromaRowBytes (j : Job) : Nat := if j.halfChroma then j.w / 2 else j.w

/-- The RGB region (R88). -/
def Job.rgbRegion (j : Job) : Region := ⟨j.desc.rgbAddr.toNat, j.desc.rgbStride.toNat, j.h, j.rgbRowBytes⟩

/-- The Y region (R88). -/
def Job.yRegion (j : Job) : Region := ⟨j.desc.yAddr.toNat, j.desc.yStride.toNat, j.h, j.w⟩

/-- The Cb region (R88). -/
def Job.cbRegion (j : Job) : Region := ⟨j.desc.cbAddr.toNat, j.desc.cbStride.toNat, j.chromaRows, j.chromaRowBytes⟩

/-- The Cr region (R88). -/
def Job.crRegion (j : Job) : Region := ⟨j.desc.crAddr.toNat, j.desc.crStride.toNat, j.chromaRows, j.chromaRowBytes⟩

/-- All regions of the job. -/
def Job.regions (j : Job) : List Region := [j.rgbRegion, j.yRegion, j.cbRegion, j.crRegion]

/-- The regions the job writes (R88). -/
def Job.dests (j : Job) : List Region :=
  match j.op with
  | .rgb2ycc => [j.yRegion, j.cbRegion, j.crRegion]
  | .ycc2rgb => [j.rgbRegion]

/-- A byte of a destination region is also a byte of another region of the command (R97). -/
def Job.overlaps (j : Job) : Bool :=
  let acrossRgb := j.rgbRegion.meets j.yRegion || j.rgbRegion.meets j.cbRegion || j.rgbRegion.meets j.crRegion
  match j.op with
  | .rgb2ycc =>
    acrossRgb || j.yRegion.meets j.cbRegion || j.yRegion.meets j.crRegion || j.cbRegion.meets j.crRegion
  | .ycc2rgb => acrossRgb

/-! ### Checks at acceptance (R89, R90) -/

/-- The format check (R90): the supported format, or none. -/
def supportedFormat (op : FrameOp) (depth : Byte) (subs : BitVec 2) : Option (Depth × Subs) :=
  match op, depthOf depth, subsOf subs with
  | .rgb2ycc, some d, some u => some (d, u)
  | .ycc2rgb, some .d24, some .s420 => some (.d24, .s420)
  | _, _, _ => none

/-- The region's last byte lies above 0xFFFFFFFF (R89, check 4): `A + S·(N−1) + L − 1`, computed exactly. -/
def Region.pastEnd (r : Region) : Bool := 0xFFFFFFFF < r.base + r.stride * (r.rows - 1) + r.rowBytes - 1

/-- One of the four argument checks of R89 fails. -/
def argumentsBad (j : Job) : Bool :=
  (j.w = 0 || j.h = 0) ||
  (j.subs = .s420 && (j.w % 2 = 1 || j.h % 2 = 1)) ||
  j.regions.any (fun r => r.stride < r.rowBytes) ||
  j.regions.any Region.pastEnd

/-- `check(c, REG)` of R61: the format check first (R90), then the argument checks (R89); the job to latch where they
pass. -/
def frameCheck (op : FrameOp) (depth : Byte) (subs : BitVec 2) (d : Desc) : Except ErrCode Job :=
  match supportedFormat op depth subs with
  | none => .error .unsupportedFormat
  | some (dep, sub) =>
    let j : Job := ⟨op, dep, sub, d⟩
    if argumentsBad j then .error .invalidArgument else .ok j

/-- A frame command at its `CMD` write (R61, R91): checked, and either its error is raised or its job is latched. -/
def issueFrame (op : FrameOp) (depth : Byte) (subs : BitVec 2) (s : State) : Outcome :=
  issue s fun t =>
    match frameCheck op depth subs t.desc with
    | .error code => .next (t.raise code)
    | .ok j => .next (t.latch j)

/-- `FRM_RGB2YCC` (R92, R93) at its `CMD` write; its bytes are written at completion. -/
def execFrmRgb2ycc (depth : Byte) (subs : BitVec 2) (s : State) : Outcome := issueFrame .rgb2ycc depth subs s

/-- `FRM_YCC2RGB` (R94) at its `CMD` write; its bytes are written at completion. -/
def execFrmYcc2rgb (depth : Byte) (subs : BitVec 2) (s : State) : Outcome := issueFrame .ycc2rgb depth subs s

/-! ### Pixels in memory (R86, R87) -/

/-- `PixRead(p, depth)` (R86). The fourth byte of a 32-bit pixel is not read. -/
def pixRead (order : ChannelOrder) (m : Memory) (p : Nat) : Rgb :=
  match order with
  | .bgr => ⟨m.read (p + 2), m.read (p + 1), m.read p⟩
  | .rgb => ⟨m.read p, m.read (p + 1), m.read (p + 2)⟩

/-- Byte `k` (0, 1 or 2) of a pixel as `PixWrite` lays it out (R87). -/
def pixByte (order : ChannelOrder) (px : Rgb) (k : Nat) : Byte :=
  match order, k with
  | .bgr, 0 => px.b
  | .bgr, 1 => px.g
  | .bgr, _ => px.r
  | .rgb, 0 => px.r
  | .rgb, 1 => px.g
  | .rgb, _ => px.b

/-! ### The bytes a job writes (R92 to R94) -/

/-- The source pixel of destination row `r`, column `c` of a forward job: source rows are read bottom-to-top,
`sr = H - 1 - r` (R92, R93). -/
def Job.sourcePixel (j : Job) (order : ChannelOrder) (m : Memory) (r c : Nat) : Rgb :=
  pixRead order m
    (j.desc.rgbAddr.toNat + (j.h - 1 - r) * j.desc.rgbStride.toNat + c * bytesPerPixel j.depth)

/-- R92: each pixel on its own, through the 4:4:4 functions. -/
def Job.cells444 (j : Job) (q : Params) (m : Memory) : List Host.Cell :=
  let px := fun r c => rgbToYcc444 q (j.sourcePixel q.channelOrder m r c)
  j.yRegion.fill (fun r c => (px r c).y) ++
  j.cbRegion.fill (fun r c => (px r c).cb) ++
  j.crRegion.fill (fun r c => (px r c).cr)

/-- The average of `f` over the 2×2 block `(i, j)`: the sum of the four values divided by 4 (R93, D22). -/
def average4 (f : Nat → Nat → Int) (i k : Nat) : Int :=
  truncDiv (f (2 * i) (2 * k) + f (2 * i) (2 * k + 1) + f (2 * i + 1) (2 * k) + f (2 * i + 1) (2 * k + 1)) 4

/-- R93: luma per pixel, chroma as the average of four per-pixel values. -/
def Job.cells420 (j : Job) (q : Params) (m : Memory) : List Host.Cell :=
  let px := fun r c => j.sourcePixel q.channelOrder m r c
  j.yRegion.fill (fun r c => toByte (y601 (px r c))) ++
  j.cbRegion.fill (fun i k => toByte (average4 (fun r c => cb601 (px r c)) i k)) ++
  j.crRegion.fill (fun i k => toByte (average4 (fun r c => cr601 (px r c)) i k))

/-- The plane sample at row `r`, column `c`. -/
def Region.sample (g : Region) (m : Memory) (r c : Nat) : Byte := m.read (g.base + r * g.stride + c)

/-- R94: chroma replicated to pairs of columns and rows, rows not flipped. -/
def Job.cellsInverse (j : Job) (q : Params) (m : Memory) : List Host.Cell :=
  let px := fun r c => yccToRgb
    ⟨j.yRegion.sample m r c, j.cbRegion.sample m (r / 2) (c / 2), j.crRegion.sample m (r / 2) (c / 2)⟩
  j.rgbRegion.fill (fun r k => pixByte q.channelOrder (px r (k / 3)) (k % 3))

/-- The bytes the job writes, computed from memory as it stands (R96). -/
def Job.cells (j : Job) (q : Params) (m : Memory) : List Host.Cell :=
  match j.op, j.subs with
  | .rgb2ycc, .s444 => j.cells444 q m
  | .rgb2ycc, .s420 => j.cells420 q m
  | .ycc2rgb, _ => j.cellsInverse q m

/-! ### Completion (R96, R97) -/

/-- The platform's memory admits every byte of the job's regions (20_memory.md R36). -/
def Job.admitted (j : Job) (q : Params) : Bool := j.regions.all fun r => r.addrs.all (admits q)

/-- The job uses the 4:4:4 formulas (R92). -/
def Job.uses444 (j : Job) : Bool := j.op = .rgb2ycc && j.subs = .s444

/-- The destination bytes take any value: the regions overlap (R97), or the host has raced with the job (R42). -/
def Job.unspecified (j : Job) (raced : Bool) : Bool := raced || j.overlaps

/-- The frame engine's completion of job `j` (R96): its bytes are written, or take any value (R42, R97), in one atomic
step, and `BUSY <- 0`. Stuck where the memory does not admit an address (R36); refused where a 4:4:4 formula has an
inadmissible parameter tuple (R79). -/
def completeJob (j : Job) (s : State) : Outcome :=
  if !j.admitted s.params then .fault .engineStuck
  else if j.uses444 && !paramsAdmissible s.params then .refused .inadmissibleChroma
  else
    let t := s.endJob.setUnseen (s.unseen ++ j.dests)
    if j.unspecified s.raced then
      .next ((t.setMem (s.mem.writeAll (freeCells s.params s.draws j.dests))).countDraw)
    else .next (t.setMem (s.mem.writeAll (j.cells s.params s.mem)))

end Sys2Proof.Machine
end

