-- ==== Sys2Proof/Machine/Dispatch.lean ====
section
/-! DEFINITION. One arm per command. A meaning is the whole step of 40_command.md R61 for a `CMD` write of that command:
dropped while BUSY is 1, otherwise accepted and carried out. -/

namespace Sys2Proof.Machine

def exec (i : Instr) (s : State) : Host.Outcome State Fault Refusal :=
  match i with
  | .nop => Sys2Proof.Machine.execNop s
  | .ulaw2lin code => Sys2Proof.Machine.execUlaw2lin code s
  | .alaw2lin code => Sys2Proof.Machine.execAlaw2lin code s
  | .lin2alaw sample => Sys2Proof.Machine.execLin2alaw sample s
  | .lin2ulaw sample => Sys2Proof.Machine.execLin2ulaw sample s
  | .pixRgb2ycc r g b => Sys2Proof.Machine.execPixRgb2ycc r g b s
  | .pixRgb2yccHp r g b => Sys2Proof.Machine.execPixRgb2yccHp r g b s
  | .pixYcc2rgb y cb cr => Sys2Proof.Machine.execPixYcc2rgb y cb cr s
  | .frmRgb2ycc depth subs => Sys2Proof.Machine.execFrmRgb2ycc depth subs s
  | .frmYcc2rgb depth subs => Sys2Proof.Machine.execFrmYcc2rgb depth subs s

end Sys2Proof.Machine
end

