-- ==== Sys2Proof/Machine/Bus.lean ====
section
/-! DEFINITION. The agents' moves: the host's register and memory accesses (20_memory.md, 30_encoding.md R58, 40_command.md
R61, R66), the frame engine's completion (43_color_frame.md R96), and reset (70_reset_and_hazards.md R109, R110). -/

namespace Sys2Proof.Machine

/-! ### Register accesses -/

/-- A host write of `w` to `CMD` (R61). -/
def issueWord (w : Word) (s : State) : Outcome :=
  match decode w with
  | .command i => exec i s
  | .illegal _ => issueIllegal s

/-- A host write of `w` to a register: to `CMD` it issues a command, to a descriptor register it takes effect at once,
and to any other it is ignored (R18 to R25). -/
def writeReg (r : Reg) (w : Word) (s : State) : Outcome :=
  match r with
  | .cmd => issueWord w s
  | r => .next (s.setDesc (descWrite s.desc r w))

/-- A host read of a register at `offset` of the window: the value is returned and no register changes (R33, R66). A read
of `STATUS` that returns BUSY = 0 is where the host comes to see what completed jobs have written (R41, R44). -/
def readReg (offset : Nat) (r : Reg) (s : State) : State :=
  let t := s.reply (.reg offset (regRead s r))
  if r = .status && !s.busy then t.setUnseen [] else t

/-! ### Memory accesses of the host -/

/-- A host read of the byte is a race or not yet ordered after a completed job's writes: the byte lies in a destination
region of the job in flight (R42) or of a completed job the host has not yet seen (R41, R115). -/
def readIsFree (s : State) (a : Nat) : Bool :=
  (match s.job with | some j => inRegions j.dests a | none => false) || inRegions s.unseen a

/-- A host write to the byte races with the job in flight (R42). -/
def writeRaces (s : State) (a : Nat) : Bool :=
  match s.job with
  | some j => inRegions j.regions a
  | none => false

/-- A host read of one byte of bus memory. -/
def hostMemRead (a : Word) (s : State) : Outcome :=
  if !admits s.params a.toNat then .refused .memoryAccess
  else if readIsFree s a.toNat then .next (s.reply (.mem a (Config.freeByte s.draws a.toNat))).countDraw
  else .next (s.reply (.mem a (s.mem.read a.toNat)))

/-- A host write of one byte of bus memory. -/
def hostMemWrite (a : Word) (b : Byte) (s : State) : Outcome :=
  if !admits s.params a.toNat then .refused .memoryAccess
  else
    let t := s.setMem (s.mem.write a.toNat b)
    if writeRaces s a.toNat then .next t.markRaced else .next t

/-! ### The host's turn -/

/-- `wr OFF, V`: a 32-bit write at an offset of the register window (R58), where the platform has put it (R37). -/
def wrOp (q : Params) (offset : Nat) (w : Word) : HostOp := .write .word (q.windowBase + offset) w

/-- `rd OFF`: a 32-bit read at an offset of the register window (R58). -/
def rdOp (q : Params) (offset : Nat) : HostOp := .read .word (q.windowBase + offset)

/-- `poll OFF, M, V` (R58, R59). -/
def pollOp (q : Params) (offset : Nat) (mask value : Word) : HostOp := .poll (q.windowBase + offset) mask value

/-- `cmd <command>`: the same as `wr CMD, <word>` (R58). -/
def cmdOp (q : Params) (i : Instr) : HostOp := wrOp q 0x00 (encode i)

/-- One operation of the host, already taken off its list. A `poll` whose condition does not hold yet is put back: it is
the loop of R59. -/
def hostAct (op : HostOp) (s : State) : Outcome :=
  match op with
  | .write size addr w =>
    match accessedReg s.params size addr with
    | some r => writeReg r w s
    | none => .refused .registerAccess
  | .read size addr =>
    match accessedReg s.params size addr with
    | some r => .next (readReg (addr - s.params.windowBase) r s)
    | none => .refused .registerAccess
  | .poll addr mask value =>
    match accessedReg s.params .word addr with
    | some r =>
      let t := readReg (addr - s.params.windowBase) r s
      if regRead s r &&& mask = value then .next t else .next (t.setHost (op :: t.host))
    | none => .refused .registerAccess
  | .memWrite a b => hostMemWrite a b s
  | .memRead a => hostMemRead a s

/-- The host's turn: its next operation, or nothing where it has none. -/
def hostTurn (s : State) : Outcome :=
  match s.host with
  | [] => .next s
  | op :: rest => hostAct op (s.setHost rest)

/-! ### The engine's turn and reset -/

/-- The frame engine's turn: the completion step while BUSY is 1 (R96), nothing otherwise. -/
def engineTurn (s : State) : Outcome :=
  match s.job with
  | some j => completeJob j s
  | none => .next s

/-- Reset (R109, R111). A frame command in flight is abandoned and its destination bytes take any value (R110). -/
def resetTurn (s : State) : State :=
  match s.job with
  | some j => (s.setMem (s.mem.writeAll (freeCells s.params s.draws j.dests))).countDraw.clearRegs
  | none => s.clearRegs

/-! ### Scheduling -/

/-- The frame engine's step is enabled: BUSY is 1 (R10), and the engine is not stuck (R36). -/
def engineEnabled (s : State) : Bool :=
  match s.job with
  | some j => j.admitted s.params
  | none => false

/-- Who moves next: the scheduler's next choice; without one, the engine where it is enabled, else the host. So an enabled
engine is scheduled after finitely many steps, as the fairness of R117 asks (notes/assumptions/5.md). -/
def nextTurn (s : State) : Turn :=
  match s.turns with
  | t :: _ => t
  | [] => if engineEnabled s then .engine else .host

/-- One move of the agent named. -/
def move (t : Turn) (s : State) : Outcome :=
  match t with
  | .host => hostTurn s
  | .engine => engineTurn s
  | .reset => .next (resetTurn s)

end Sys2Proof.Machine
end

