-- ==== Sys2Proof/Machine/Step.lean ====
section
/-! DEFINITION. One step of the machine: the agent whose turn it is moves. -/

namespace Sys2Proof.Machine

/-- One step: the next turn is taken off the scheduler's list and its agent moves. -/
def step (s : State) : Host.Outcome State Fault Refusal := move (nextTurn s) (s.setTurns s.turns.tail)

/-- The state with the `nbits` low bits of `w` as the command the next step issues: a host write of the word to `CMD`
stands first in the host's list, and the next turn is the host's. The block fetches nothing (R14, R46): this stands for
the host program being loaded from outside (notes/assumptions/8.md). -/
def State.withFetchWord (s : State) (nbits w : Nat) : State :=
  { s with
    host := wrOp s.params 0x00 (BitVec.ofNat 32 (w % 2 ^ nbits)) :: s.host
    turns := .host :: s.turns }

end Sys2Proof.Machine
end

