-- ==== Sys2Proof/Machine/AsmSyntax.lean ====
section
/-! DEFINITION. The abstract form of a line of the assembler syntax of 30_encoding.md R57, before its operands are
checked. -/

namespace Sys2Proof.Machine

/-- A number as written: its value, and whether it was written in hexadecimal (R57 gives raw bits in hexadecimal only). -/
structure AsmNum where
  value : Int
  hex : Bool
  deriving DecidableEq, Repr

/-- The `S` operand of a frame form: `420`, `444` or `#n` (R57). -/
inductive AsmSubs where
  | s420
  | s444
  | raw (n : AsmNum)
  deriving DecidableEq, Repr

/-- One line of R57's table. -/
inductive AsmLine where
  | nop
  | ulaw2lin (c : AsmNum)
  | alaw2lin (c : AsmNum)
  | lin2alaw (x : AsmNum)
  | lin2ulaw (x : AsmNum)
  | pixRgb2ycc (r g b : AsmNum)
  | pixRgb2yccHp (r g b : AsmNum)
  | pixYcc2rgb (y cb cr : AsmNum)
  | frmRgb2ycc (d : AsmNum) (s : AsmSubs)
  | frmYcc2rgb (d : AsmNum) (s : AsmSubs)
  deriving DecidableEq, Repr

end Sys2Proof.Machine
end

