-- ==== Sys2Proof/WellFormed.lean ====
section
/-! DEFINITION. Well-formedness. A command's operands have the widths of their fields, so every `Instr` is well formed
(R50, R55: an unsupported depth or subs is well formed). A line of assembly is well formed when each operand is in the
range R57 gives it; "an assembler rejects an operand out of its range". -/

namespace Sys2Proof

/-- Every command is well formed: R54's "must be 0" bits have no operand to stand in, and R55 counts every `depth` and
`subs` as well formed. -/
def Instr.wellFormed : Instr → Bool
  | .nop => true
  | .ulaw2lin _ => true
  | .alaw2lin _ => true
  | .lin2alaw _ => true
  | .lin2ulaw _ => true
  | .pixRgb2ycc _ _ _ => true
  | .pixRgb2yccHp _ _ _ => true
  | .pixYcc2rgb _ _ _ => true
  | .frmRgb2ycc _ _ => true
  | .frmYcc2rgb _ _ => true

namespace Machine

/-- A byte operand: 0..255 (R57). -/
def AsmNum.isByte (n : AsmNum) : Bool := 0 ≤ n.value && n.value ≤ 255

/-- A sample operand: -32768..32767, or 0x0000..0xFFFF as raw bits (R57). -/
def AsmNum.isSample (n : AsmNum) : Bool :=
  (-32768 ≤ n.value && n.value ≤ 32767) || (n.hex && 0 ≤ n.value && n.value ≤ 65535)

/-- A subsampling operand: `#n` with n in 0..3 (R57). -/
def AsmSubs.inRange : AsmSubs → Bool
  | .s420 => true
  | .s444 => true
  | .raw n => 0 ≤ n.value && n.value ≤ 3

/-- Each operand of the line is in its range (R57). -/
def AsmLine.wellFormed : AsmLine → Bool
  | .nop => true
  | .ulaw2lin c => c.isByte
  | .alaw2lin c => c.isByte
  | .lin2alaw x => x.isSample
  | .lin2ulaw x => x.isSample
  | .pixRgb2ycc r g b => r.isByte && g.isByte && b.isByte
  | .pixRgb2yccHp r g b => r.isByte && g.isByte && b.isByte
  | .pixYcc2rgb y cb cr => y.isByte && cb.isByte && cr.isByte
  | .frmRgb2ycc d s => d.isByte && s.inRange
  | .frmYcc2rgb d s => d.isByte && s.inRange

end Machine

end Sys2Proof
end

