-- ==== Sys2Proof/Machine/Assembler.lean ====
section
/-! DEFINITION. The assembler of 30_encoding.md R57: from a line of text to its abstract form, and from that to its
command word. -/

namespace Sys2Proof.Machine

/-- The 32-bit word of `opcode << 24 | fields`. -/
def asmWord (opcode fields : Nat) : Word := BitVec.ofNat 32 (opcode <<< 24 ||| fields)

/-- The raw bits of a sample operand: `X & 0xFFFF` (R57). -/
def AsmNum.sampleBits (x : AsmNum) : Nat := (x.value % 65536).toNat

/-- `S'`: 420 is 0, 444 is 1, `#n` is n (R57). -/
def AsmSubs.code : AsmSubs → Nat
  | .s420 => 0
  | .s444 => 1
  | .raw n => n.value.toNat

/-- The three bytes of a pixel form: `R<<16 | G<<8 | B` (R57). -/
def asmTriple (a b c : AsmNum) : Nat := a.value.toNat <<< 16 ||| b.value.toNat <<< 8 ||| c.value.toNat

/-- The word of a line whose operands are in range: the "word" column of R57. -/
def AsmLine.word : AsmLine → Word
  | .nop => 0
  | .ulaw2lin c => asmWord 0x01 c.value.toNat
  | .alaw2lin c => asmWord 0x02 c.value.toNat
  | .lin2alaw x => asmWord 0x03 x.sampleBits
  | .lin2ulaw x => asmWord 0x04 x.sampleBits
  | .pixRgb2ycc r g b => asmWord 0x10 (asmTriple r g b)
  | .pixRgb2yccHp r g b => asmWord 0x11 (asmTriple r g b)
  | .pixYcc2rgb y cb cr => asmWord 0x12 (asmTriple y cb cr)
  | .frmRgb2ycc d s => asmWord 0x20 (s.code <<< 8 ||| d.value.toNat)
  | .frmYcc2rgb d s => asmWord 0x21 (s.code <<< 8 ||| d.value.toNat)

/-- The assembler: a line with an operand out of its range is rejected (R57). -/
def assemble (l : AsmLine) : Option Word := if l.wellFormed then some l.word else none

/-! ### Text (notes/assumptions/22.md) -/

/-- Text without the spaces and tabs at its start. -/
def skipBlanks (cs : List Char) : List Char := cs.dropWhile fun c => c = ' ' || c = '\t'

/-- Text without the spaces and tabs at its two ends. -/
def trimBlanks (cs : List Char) : List Char := (skipBlanks (skipBlanks cs).reverse).reverse

/-- Text cut at every comma. -/
def splitCommas : List Char → List (List Char)
  | [] => [[]]
  | ',' :: rest => [] :: splitCommas rest
  | c :: rest =>
    match splitCommas rest with
    | [] => [[c]]
    | w :: ws => (c :: w) :: ws

/-- The value of a digit in a base up to 16. -/
def digitValue (base : Nat) (c : Char) : Option Nat :=
  let n := c.toNat
  let v := if 48 ≤ n && n ≤ 57 then n - 48 else if 97 ≤ n && n ≤ 102 then n - 87 else if 65 ≤ n && n ≤ 70 then n - 55 else base
  if v < base then some v else none

/-- The value of digits after a value `acc` already read. -/
def readDigits (base : Nat) : List Char → Nat → Option Nat
  | [], acc => some acc
  | c :: rest, acc =>
    match digitValue base c with
    | some v => readDigits base rest (acc * base + v)
    | none => none

/-- A non-empty run of digits. -/
def readNat (base : Nat) (cs : List Char) : Option Nat := if cs.isEmpty then none else readDigits base cs 0

/-- An unsigned number: decimal, or hexadecimal with a `0x` prefix (R57). -/
def readUnsigned : List Char → Option AsmNum
  | '0' :: 'x' :: rest => (readNat 16 rest).map fun v => ⟨v, true⟩
  | cs => (readNat 10 cs).map fun v => ⟨v, false⟩

/-- A number, with a minus sign or without. -/
def readNum : List Char → Option AsmNum
  | '-' :: rest => (readUnsigned rest).map fun n => ⟨-n.value, n.hex⟩
  | cs => readUnsigned cs

/-- The `S` operand: `420`, `444` or `#n` (R57). -/
def readSubs (cs : List Char) : Option AsmSubs :=
  if cs = "420".toList then some .s420
  else if cs = "444".toList then some .s444
  else match cs with
    | '#' :: rest => (readNum rest).map .raw
    | _ => none

/-- A line with one number. -/
def line1 (f : AsmNum → AsmLine) : List (List Char) → Option AsmLine
  | [a] => (readNum a).map f
  | _ => none

/-- A line with three numbers. -/
def line3 (f : AsmNum → AsmNum → AsmNum → AsmLine) : List (List Char) → Option AsmLine
  | [a, b, c] =>
    match readNum a, readNum b, readNum c with
    | some x, some y, some z => some (f x y z)
    | _, _, _ => none
  | _ => none

/-- A line with a number and a subsampling. -/
def lineFrame (f : AsmNum → AsmSubs → AsmLine) : List (List Char) → Option AsmLine
  | [d, s] =>
    match readNum d, readSubs s with
    | some x, some y => some (f x y)
    | _, _ => none
  | _ => none

/-- A line from its mnemonic and its operands (the "syntax" column of R57). -/
def lineOf (mnemonic : List Char) (operands : List (List Char)) : Option AsmLine :=
  if mnemonic = "nop".toList then (if operands = [[]] then some .nop else none)
  else if mnemonic = "ulaw2lin".toList then line1 .ulaw2lin operands
  else if mnemonic = "alaw2lin".toList then line1 .alaw2lin operands
  else if mnemonic = "lin2alaw".toList then line1 .lin2alaw operands
  else if mnemonic = "lin2ulaw".toList then line1 .lin2ulaw operands
  else if mnemonic = "pix.rgb2ycc".toList then line3 .pixRgb2ycc operands
  else if mnemonic = "pix.rgb2ycc.hp".toList then line3 .pixRgb2yccHp operands
  else if mnemonic = "pix.ycc2rgb".toList then line3 .pixYcc2rgb operands
  else if mnemonic = "frm.rgb2ycc".toList then lineFrame .frmRgb2ycc operands
  else if mnemonic = "frm.ycc2rgb".toList then lineFrame .frmYcc2rgb operands
  else none

/-- A line of text: a mnemonic, then operands separated by commas. -/
def parseLine (text : List Char) : Option AsmLine :=
  let cs := trimBlanks text
  let mnemonic := cs.takeWhile fun c => c ≠ ' ' && c ≠ '\t'
  lineOf mnemonic ((splitCommas (cs.drop mnemonic.length)).map trimBlanks)

/-- The word of a line of text: "each line assembles to exactly one word" (R57). -/
def assembleText (text : List Char) : Option Word := (parseLine text).bind assemble

end Sys2Proof.Machine
end

