-- ==== Sys2Proof/Safety.lean ====
section
/-! DEFINITION. What counts as a good state and a good run, in the terms the statements use. -/

namespace Sys2Proof.Machine

/-- The frame commands: those the frame engine completes later (30_encoding.md R51). Every other command completes within
its `CMD` write. -/
def isFrame : Instr → Bool
  | .frmRgb2ycc _ _ => true
  | .frmYcc2rgb _ _ => true
  | .nop => false
  | .ulaw2lin _ => false
  | .alaw2lin _ => false
  | .lin2alaw _ => false
  | .lin2ulaw _ => false
  | .pixRgb2ycc _ _ _ => false
  | .pixRgb2yccHp _ _ _ => false
  | .pixYcc2rgb _ _ _ => false

/-- A latched job has passed its checks (43_color_frame.md R89 to R91): its format is supported and its arguments are
good. -/
def Job.valid (j : Job) : Bool :=
  !argumentsBad j && (j.op = .rgb2ycc || (j.depth = .d24 && j.subs = .s420))

/-- The invariant of the model: memory keeps its canonical form, JOB holds a job that passed its checks (R91), and a race
is recorded only while a job is in flight (R42). -/
def Inv (s : State) : Prop :=
  s.mem.wf ∧ (∀ j, s.job = some j → j.valid = true) ∧ (s.raced = true → s.busy = true)

/-- The host operation keeps the interface contract (20_memory.md R31, R32) and touches only admitted addresses (R36). -/
def HostOp.legal (q : Params) : HostOp → Bool
  | .write size addr _ => (accessedReg q size addr).isSome
  | .read size addr => (accessedReg q size addr).isSome
  | .poll addr _ _ => (accessedReg q .word addr).isSome
  | .memWrite a _ => admits q a.toNat
  | .memRead a => admits q a.toNat

/-- `n` steps, stopping at the first that does not answer a next state. -/
def runSteps : Nat → State → Outcome
  | 0, s => .next s
  | n + 1, s =>
    match step s with
    | .next t => runSteps n t
    | .fault f => .fault f
    | .refused r => .refused r

/-- The job's destination bytes are what the rules of its command give: its regions do not overlap (R97) and no host write
has raced with it (R42). -/
def cleanJob (s : State) (j : Job) : Prop := s.job = some j ∧ s.raced = false ∧ j.overlaps = false

end Sys2Proof.Machine
end

