-- ==== Sys2Proof/Certificates/Slice0/Obligations.lean ====
section
/-! DEFINITION. The statements for the provers. `Sys2Proof.Ref` holds the spec's formulas and tables in a form of their
own: plain integer arithmetic, written apart from the meanings. Integer `/` by a positive number is the floor. -/

open Sys2Proof Sys2Proof.Machine

namespace Sys2Proof.Ref

/-! ### Formulas and tables of the spec -/

/-- R68, on the fields of the inverted code. -/
def ulawSample (code : Byte) : Int :=
  let u := ~~~code
  let t : Int := (8 * (u.extractLsb' 0 4).toNat + 132) * 2 ^ (u.extractLsb' 4 3).toNat
  if u.msb then 132 - t else t - 132

/-- R69, on the fields of the un-masked code. -/
def alawSample (code : Byte) : Int :=
  let a := code ^^^ 0x55#8
  let e := (a.extractLsb' 4 3).toNat
  let m : Int := (a.extractLsb' 0 4).toNat
  let t : Int := if e = 0 then 16 * m + 8 else (16 * m + 264) * 2 ^ (e - 1)
  if a.msb then t else -t

/-- R70: the exponent is 0 below 32 and else counts the segments from bit 5 up. -/
def alawCode (x : Int) : Nat :=
  let mag := min x.natAbs 4095
  let e := if mag < 32 then 0 else Nat.log2 mag - 4
  ((if 0 ≤ x then 128 else 0) + 16 * e + mag / 2 ^ max e 1 % 16) ^^^ 85

/-- R71: the segment ends are one below the powers of two from 64 to 8192, each inclusive. -/
def ulawCode (x : Int) : Nat :=
  let mask := if x < 0 then 127 else 255
  let mag := min x.natAbs 8159 + 33
  if 8191 < mag then 127 ^^^ mask
  else (16 * (Nat.log2 mag - 5) + mag / 2 ^ (Nat.log2 mag - 4) % 16) ^^^ mask

/-- `Y601` (R78). -/
def luma601 (r g b : Byte) : Int := (66 * r.toNat + 129 * g.toNat + 25 * b.toNat + 128 : Int) / 256 + 16

/-- `Cb601` (R78). -/
def cb601 (r g b : Byte) : Int := (-38 * r.toNat - 74 * g.toNat + 112 * b.toNat + 128 : Int) / 256 + 128

/-- `Cr601` (R78). -/
def cr601 (r g b : Byte) : Int := (112 * r.toNat - 94 * g.toNat - 18 * b.toNat + 128 : Int) / 256 + 128

/-- `Y444` (R79). -/
def luma444 (r g b : Byte) : Int := (65481 * r.toNat + 128553 * g.toNat + 24966 * b.toNat + 4207500 : Int) / 255000

/-- The numerator of a 4:4:4 chroma formula (R79). -/
def chromaNumerator (t : Chroma444) (r g b : Byte) : Int := t.r * r.toNat + t.g * g.toNat + t.b * b.toNat + t.k

/-- `Cb444` or `Cr444` (R79). -/
def chroma444 (t : Chroma444) (r g b : Byte) : Int := chromaNumerator t r g b / t.d

/-- A value clamped to a byte's range (R8). -/
def clamp (v : Int) : Int := max 0 (min 255 v)

/-- The red channel of `YCC2RGB` (R80). -/
def red (y _cb cr : Byte) : Int := clamp ((298 * ((y.toNat : Int) - 16) + 409 * ((cr.toNat : Int) - 128) + 128) / 256)

/-- The green channel of `YCC2RGB` (R80). -/
def green (y cb cr : Byte) : Int :=
  clamp ((298 * ((y.toNat : Int) - 16) - 100 * ((cb.toNat : Int) - 128) - 208 * ((cr.toNat : Int) - 128) + 128) / 256)

/-- The blue channel of `YCC2RGB` (R80). -/
def blue (y cb _cr : Byte) : Int := clamp ((298 * ((y.toNat : Int) - 16) + 516 * ((cb.toNat : Int) - 128) + 128) / 256)

/-- Three bytes in bits 23:16, 15:8 and 7:0 (R50). -/
def packed (a b c : Int) : Word := BitVec.ofInt 32 (a * 65536 + b * 256 + c)

/-- The word `{OPC, OPD}` (R49). -/
def word (opcode : BitVec 8) (operand : BitVec 24) : Word := opcode ++ operand

/-- The pixel at byte address `p` (R86). -/
def pixel (q : Params) (m : Memory) (p : Nat) : Rgb :=
  if q.channelOrder = .bgr then ⟨m.read (p + 2), m.read (p + 1), m.read p⟩
  else ⟨m.read p, m.read (p + 1), m.read (p + 2)⟩

/-- The formats R90 supports. -/
def format (op : FrameOp) (depth : Byte) (subs : BitVec 2) : Option (Depth × Subs) :=
  match op, depth.toNat, subs.toNat with
  | .rgb2ycc, 24, 0 => some (.d24, .s420)
  | .rgb2ycc, 24, 1 => some (.d24, .s444)
  | .rgb2ycc, 32, 0 => some (.d32, .s420)
  | .rgb2ycc, 32, 1 => some (.d32, .s444)
  | .ycc2rgb, 24, 0 => some (.d24, .s420)
  | _, _, _ => none

/-- The bits per pixel of a depth. -/
def depthBits : Depth → Nat
  | .d24 => 24
  | .d32 => 32

/-- The table of R88: the regions (A, S, N, L) in the order RGB, Y, Cb, Cr. -/
def regions (op : FrameOp) (dep : Depth) (sub : Subs) (d : Desc) : List Region :=
  let w := d.width.toNat
  let h := d.height.toNat
  match op, sub with
  | .rgb2ycc, .s420 =>
    [⟨d.rgbAddr.toNat, d.rgbStride.toNat, h, w * depthBits dep / 8⟩, ⟨d.yAddr.toNat, d.yStride.toNat, h, w⟩,
     ⟨d.cbAddr.toNat, d.cbStride.toNat, h / 2, w / 2⟩, ⟨d.crAddr.toNat, d.crStride.toNat, h / 2, w / 2⟩]
  | .rgb2ycc, .s444 =>
    [⟨d.rgbAddr.toNat, d.rgbStride.toNat, h, w * depthBits dep / 8⟩, ⟨d.yAddr.toNat, d.yStride.toNat, h, w⟩,
     ⟨d.cbAddr.toNat, d.cbStride.toNat, h, w⟩, ⟨d.crAddr.toNat, d.crStride.toNat, h, w⟩]
  | .ycc2rgb, _ =>
    [⟨d.rgbAddr.toNat, d.rgbStride.toNat, h, 3 * w⟩, ⟨d.yAddr.toNat, d.yStride.toNat, h, w⟩,
     ⟨d.cbAddr.toNat, d.cbStride.toNat, h / 2, w / 2⟩, ⟨d.crAddr.toNat, d.crStride.toNat, h / 2, w / 2⟩]

/-- One of the four argument checks of R89 raises its error. -/
def badArgument (op : FrameOp) (dep : Depth) (sub : Subs) (d : Desc) : Bool :=
  d.width.toNat = 0 || d.height.toNat = 0 ||
  (sub = .s420 && (d.width.toNat % 2 = 1 || d.height.toNat % 2 = 1)) ||
  (regions op dep sub d).any (fun g => g.stride < g.rowBytes) ||
  (regions op dep sub d).any
    (fun g => (0xFFFFFFFF : Int) < (g.base : Int) + (g.stride : Int) * ((g.rows : Int) - 1) + (g.rowBytes : Int) - 1)

/-- The error of a frame command, by the order of R102: the format check, then the argument checks. -/
def frameErr (op : FrameOp) (depth : Byte) (subs : BitVec 2) (d : Desc) : ErrCode :=
  match format op depth subs with
  | none => .unsupportedFormat
  | some (dep, sub) => if badArgument op dep sub d then .invalidArgument else .none

/-- The error an accepted `CMD` write of the word reports (R102). -/
def writeErr (w : Word) (d : Desc) : ErrCode :=
  match decode w with
  | .illegal _ => .illegalCmd
  | .command (.frmRgb2ycc depth subs) => frameErr .rgb2ycc depth subs d
  | .command (.frmYcc2rgb depth subs) => frameErr .ycc2rgb depth subs d
  | .command _ => .none

/-- The number of an error code (R100). -/
def errNumber : ErrCode → Nat
  | .none => 0
  | .illegalCmd => 1
  | .invalidArgument => 2
  | .unsupportedFormat => 3

/-- The table of R17: what a read of each offset returns. -/
def readTable (s : State) : List (Nat × Word) :=
  [(0x00, 0), (0x04, BitVec.ofNat 32 (s.busy.toNat + 2 * s.ovr.toNat + 16 * errNumber s.err)), (0x08, s.result),
   (0x0C, 0), (0x10, s.desc.rgbAddr), (0x14, s.desc.rgbStride), (0x18, BitVec.ofNat 32 s.desc.width.toNat),
   (0x1C, BitVec.ofNat 32 s.desc.height.toNat), (0x20, s.desc.yAddr), (0x24, s.desc.yStride), (0x28, s.desc.cbAddr),
   (0x2C, s.desc.cbStride), (0x30, s.desc.crAddr), (0x34, s.desc.crStride), (0x38, 0), (0x3C, 0)]

/-- What a register reads as after a write of `w`, from what it read as before (R19 to R25). -/
def written (r : Reg) (w old : Word) : Word :=
  match r with
  | .cmd => old
  | .status => old
  | .result => old
  | .reserved => old
  | .width => w &&& 0xFFFF#32
  | .height => w &&& 0xFFFF#32
  | _ => w

/-- The command a line of assembly stands for, from its operands' values (R57). -/
def asmInstr : AsmLine → Instr
  | .nop => .nop
  | .ulaw2lin c => .ulaw2lin (BitVec.ofInt 8 c.value)
  | .alaw2lin c => .alaw2lin (BitVec.ofInt 8 c.value)
  | .lin2alaw x => .lin2alaw (BitVec.ofInt 16 x.value)
  | .lin2ulaw x => .lin2ulaw (BitVec.ofInt 16 x.value)
  | .pixRgb2ycc r g b => .pixRgb2ycc (BitVec.ofInt 8 r.value) (BitVec.ofInt 8 g.value) (BitVec.ofInt 8 b.value)
  | .pixRgb2yccHp r g b => .pixRgb2yccHp (BitVec.ofInt 8 r.value) (BitVec.ofInt 8 g.value) (BitVec.ofInt 8 b.value)
  | .pixYcc2rgb y cb cr => .pixYcc2rgb (BitVec.ofInt 8 y.value) (BitVec.ofInt 8 cb.value) (BitVec.ofInt 8 cr.value)
  | .frmRgb2ycc d s => .frmRgb2ycc (BitVec.ofInt 8 d.value) (asmSubs s)
  | .frmYcc2rgb d s => .frmYcc2rgb (BitVec.ofInt 8 d.value) (asmSubs s)
where
  /-- `S'` (R57). -/
  asmSubs : AsmSubs → BitVec 2
    | .s420 => 0
    | .s444 => 1
    | .raw n => BitVec.ofInt 2 n.value

/-- The registers, JOB, bus memory and parameters are the same: everything of the state that is not the host's or the
scheduler's. -/
def sameBlock (s t : State) : Prop :=
  t.ovr = s.ovr ∧ t.err = s.err ∧ t.result = s.result ∧ t.desc = s.desc ∧ t.job = s.job ∧ t.raced = s.raced ∧
  t.params = s.params ∧ ∀ a, t.mem.read a = s.mem.read a

/-- The host's and the scheduler's side of the state is the same. -/
def sameHost (s t : State) : Prop :=
  t.host = s.host ∧ t.turns = s.turns ∧ t.replies = s.replies ∧ t.unseen = s.unseen ∧ t.draws = s.draws

/-- The job in flight can complete: the platform admits its addresses (R36), and the 4:4:4 tuples it uses are admissible
(R79). -/
def canComplete (s : State) (j : Job) : Prop :=
  j.admitted s.params = true ∧ (j.op = .rgb2ycc → j.subs = .s444 → paramsAdmissible s.params = true)

/-- A host operation whose register access is given by its offset (R60), with the window at a base (R37). -/
def placed (base : Nat) : HostOp → HostOp
  | .write size offset w => .write size (base + offset) w
  | .read size offset => .read size (base + offset)
  | .poll offset mask value => .poll (base + offset) mask value
  | .memWrite a b => .memWrite a b
  | .memRead a => .memRead a

/-- The state on a platform with the window at a base, the host's remaining accesses given by their offsets. -/
def atBase (base : Nat) (ops : List HostOp) (s : State) : State :=
  { s with params := { s.params with windowBase := base }, host := ops.map (placed base) }

end Sys2Proof.Ref

/-! ### Reset -/

/-- R109: after reset every register reads 0, no job is valid, and the parameters are what they were. -/
def Obligations.ResetClearsEveryRegister : Prop :=
  (∀ r, regRead State.reset r = 0) ∧ State.reset.job = none ∧
  ∀ s : State, ∃ t, move .reset s = .next t ∧ (∀ r, regRead t r = 0) ∧ t.job = none ∧ t.params = s.params

/-- R110, R111: reset while BUSY abandons the job; each byte of its destination regions takes any value (the model's free
value of that address and draw, log entry 11), and every other byte stays; with no job in flight all of memory stays. The
block then accepts a command at once. -/
def Obligations.ResetAbandonsTheJob : Prop :=
  ∀ s : State, ∃ t, move .reset s = .next t ∧ t.busy = false ∧
    (s.job = none → ∀ a, t.mem.read a = s.mem.read a) ∧
    ∀ j, s.job = some j →
      (∀ a, inRegions j.dests a = false → t.mem.read a = s.mem.read a) ∧
      (∀ a, inRegions j.dests a = true → admits s.params a = true → t.mem.read a = Config.freeByte s.draws a)

/-! ### Encoding -/

/-- Words of 95_test_vectors.md section 4 decode as that table says. -/
def Obligations.DecodeSampleWords : Prop :=
  decode 0x00000000#32 = .command .nop ∧
  decode 0x010000FF#32 = .command (.ulaw2lin 0xFF#8) ∧
  decode 0x0300FFFF#32 = .command (.lin2alaw 0xFFFF#16) ∧
  decode 0x12108080#32 = .command (.pixYcc2rgb 16#8 128#8 128#8) ∧
  decode 0x20000120#32 = .command (.frmRgb2ycc 32#8 1#2) ∧
  decode 0x21000018#32 = .command (.frmYcc2rgb 24#8 0#2) ∧
  (decode 0x01000100#32).instr? = none ∧ (decode 0x13000000#32).instr? = none

/-- Decoding gives back every well-formed command that was encoded (R50 to R52, R55). -/
def Obligations.DecodeOfEncode : Prop :=
  ∀ i : Instr, i.wellFormed = true → decode (encode i) = .command i

/-- R54: no bit of an assigned word is ignored; a command has one word. -/
def Obligations.EncodeOfDecode : Prop :=
  ∀ (w : Word) (i : Instr), decode w = .command i → encode i = w

/-- R53: an unassigned opcode is illegal, whatever the operand bits, and raises ILLEGAL_CMD when issued. -/
def Obligations.UnassignedOpcodesAreIllegal : Prop :=
  ∀ (s : State) (opcode : BitVec 8) (operand : BitVec 24),
    (0x05#8 ≤ opcode ∧ opcode ≤ 0x0F#8) ∨ (0x13#8 ≤ opcode ∧ opcode ≤ 0x1F#8) ∨ 0x22#8 ≤ opcode →
    decode (Ref.word opcode operand) = .illegal .unassignedOpcode ∧
    (s.busy = false → issueWord (Ref.word opcode operand) s = .next { s with ovr := false, err := .illegalCmd })

/-- R54: a 1 in a "must be 0" position makes the word of an assigned opcode illegal: it raises ILLEGAL_CMD and has no other
effect. -/
def Obligations.ReservedBitsAreIllegal : Prop :=
  ∀ (s : State) (opcode : BitVec 8) (operand : BitVec 24),
    (opcode = 0x00#8 ∧ operand ≠ 0#24) ∨ ((opcode = 0x01#8 ∨ opcode = 0x02#8) ∧ 256#24 ≤ operand) ∨
      ((opcode = 0x03#8 ∨ opcode = 0x04#8) ∧ 65536#24 ≤ operand) ∨
      ((opcode = 0x20#8 ∨ opcode = 0x21#8) ∧ 1024#24 ≤ operand) →
    decode (Ref.word opcode operand) = .illegal .reservedBitSet ∧
    (s.busy = false → issueWord (Ref.word opcode operand) s = .next { s with ovr := false, err := .illegalCmd })

/-- R57: the assembler rejects exactly the lines with an operand out of its range, and the word of any other line is that
of the command it names, with no "must be 0" bit set. What R57 does not say is the model's choice (DESIGN CHOICE, log entry
22): a decimal sample of 32768..65535 is out of range, and a number in hexadecimal may carry a minus sign. -/
def Obligations.AssemblerWords : Prop :=
  ∀ l : AsmLine,
    (l.wellFormed = false → assemble l = none) ∧
    (l.wellFormed = true → ∃ w, assemble l = some w ∧ decode w = .command (Ref.asmInstr l))

/-! ### Registers -/

/-- R17: what a read of each register offset returns. -/
def Obligations.RegisterReads : Prop :=
  ∀ (s : State) (offset : Nat) (v : Word), (offset, v) ∈ Ref.readTable s →
    ∃ t, hostAct (rdOp s.params offset) s = .next t ∧ t.replies = .reg offset v :: s.replies

/-- R24, R25: a write to any register but `CMD` takes effect at once in that register's writable bits, in no other
register, in no job in flight and in no byte of memory. -/
def Obligations.RegisterWrites : Prop :=
  ∀ (s : State) (offset : Nat) (r : Reg) (w : Word), regAt offset = some r → r ≠ .cmd →
    ∃ t, hostAct (wrOp s.params offset w) s = .next t ∧ regRead t r = Ref.written r w (regRead s r) ∧
      (∀ r', r' ≠ r → regRead t r' = regRead s r') ∧ t.job = s.job ∧ t.raced = s.raced ∧
      (∀ a, t.mem.read a = s.mem.read a) ∧ t.params = s.params ∧ Ref.sameHost s t

/-- R31, R32: with the register window anywhere (R37), an access of another width, at an offset that is no multiple of 4 or
beyond the window is refused; every other read has a next state. -/
def Obligations.OtherAccessesRefused : Prop :=
  ∀ (s : State) (size : AccessSize) (offset : Nat) (w m v : Word),
    (¬(size = .word ∧ offset % 4 = 0 ∧ offset ≤ 0x3C) →
      hostAct (.write size (s.params.windowBase + offset) w) s = .refused .registerAccess ∧
      hostAct (.read size (s.params.windowBase + offset)) s = .refused .registerAccess) ∧
    (¬(offset % 4 = 0 ∧ offset ≤ 0x3C) → hostAct (pollOp s.params offset m v) s = .refused .registerAccess) ∧
    (offset % 4 = 0 → offset ≤ 0x3C → ∃ t, hostAct (rdOp s.params offset) s = .next t)

/-- R33, R66: a host read of a register changes no register, no job, no parameter and no byte of memory; it adds one reply
to the host's; and a read again at once returns the same value. -/
def Obligations.RegisterReadsHaveNoSideEffect : Prop :=
  ∀ (s : State) (offset : Nat) (t : State), hostAct (rdOp s.params offset) s = .next t →
    Ref.sameBlock s t ∧ t.host = s.host ∧ t.turns = s.turns ∧ t.draws = s.draws ∧
    ∃ v, t.replies = .reg offset v :: s.replies ∧
      ∃ u, hostAct (rdOp s.params offset) t = .next u ∧ u.replies = .reg offset v :: t.replies

/-- R59: a `poll` whose condition holds is one read; one whose condition does not hold is one read and the same `poll`
again. -/
def Obligations.PollIsALoopOfReads : Prop :=
  ∀ (s : State) (offset : Nat) (v : Word), (offset, v) ∈ Ref.readTable s → ∀ mask value : Word,
    ∃ t, hostAct (pollOp s.params offset mask value) s = .next t ∧ t.replies = .reg offset v :: s.replies ∧ Ref.sameBlock s t ∧
      (v &&& mask = value → t.host = s.host) ∧
      (v &&& mask ≠ value → t.host = pollOp s.params offset mask value :: s.host)

/-- R33: only a write to `CMD` has an effect beyond the register or the byte it names: every other host operation leaves
OVR, ERR, RESULT and JOB, and a register write leaves memory. R33 speaks of registers only: that a host write to bus memory
changes its own byte, at once and also where it races with a job in flight or comes before the host has seen BUSY = 0, is
the model's reading (log entries 4, 12 and 14, DEDUCED). -/
def Obligations.OnlyCmdWritesHaveSideEffects : Prop :=
  ∀ (s : State) (op : HostOp) (t : State), (∀ w, op ≠ wrOp s.params 0x00 w) → hostAct op s = .next t →
    t.ovr = s.ovr ∧ t.err = s.err ∧ t.result = s.result ∧ t.job = s.job ∧ t.params = s.params ∧
    (∀ a, (∀ b, ∀ x : Word, op = .memWrite x b → x.toNat ≠ a) → t.mem.read a = s.mem.read a) ∧
    ∀ (x : Word) (b : Byte), op = .memWrite x b → t.mem.read x.toNat = b ∧ t.desc = s.desc

/-! ### Command issue -/

/-- R62: a `CMD` write while BUSY is 1 sets OVR and has no other effect, whatever the word; the next accepted command
clears OVR. -/
def Obligations.BusyDropsEveryWord : Prop :=
  (∀ (s : State) (w : Word), s.busy = true → issueWord w s = .next { s with ovr := true }) ∧
  ∀ (s t : State) (w : Word), s.busy = false → issueWord w s = .next t → t.ovr = false

/-- R65: with admissible parameters (R79) a `CMD` write of any word in any state has an outcome, and an immediate command
that decodes raises no error. -/
def Obligations.EveryWordHasAnOutcome : Prop :=
  ∀ (s : State) (w : Word), paramsAdmissible s.params = true →
    ∃ t, issueWord w s = .next t ∧
      ∀ i, decode w = .command i → isFrame i = false → s.busy = false → t.err = .none

/-- R102: a `CMD` write reports one outcome, by the order busy, illegal, format, arguments. -/
def Obligations.ErrorPriority : Prop :=
  ∀ (s : State) (w : Word), paramsAdmissible s.params = true →
    ∃ t, issueWord w s = .next t ∧
      (s.busy = true → t.ovr = true ∧ t.err = s.err) ∧
      (s.busy = false → t.ovr = false ∧ t.err = Ref.writeErr w s.desc)

/-- R103: when an accepted command raises an error, its code in ERR and the cleared OVR are all that changes. -/
def Obligations.ErrorsChangeOnlyErr : Prop :=
  ∀ (s : State) (w : Word) (t : State), s.busy = false → issueWord w s = .next t → t.err ≠ .none →
    t = { s with ovr := false, err := t.err }

/-- R63: NOP clears OVR and ERR and does nothing else; while busy it is dropped; it is the word 0 alone. -/
def Obligations.NopResult : Prop :=
  (∀ s : State, s.busy = false → exec .nop s = .next { s with ovr := false, err := .none }) ∧
  (∀ s : State, s.busy = true → exec .nop s = .next { s with ovr := true }) ∧
  ∀ w : Word, decode w = .command .nop ↔ w = 0

/-! ### The compander -/

/-- R68: ULAW2LIN's word, its completion, and its result. -/
def Obligations.Ulaw2linResult : Prop :=
  ∀ (code : Byte) (s : State),
    decode (Ref.word 0x01#8 (code.setWidth 24)) = .command (.ulaw2lin code) ∧
    (s.busy = false → exec (.ulaw2lin code) s =
      .next { s with ovr := false, err := .none, result := BitVec.ofInt 32 (Ref.ulawSample code) }) ∧
    -32124 ≤ Ref.ulawSample code ∧ Ref.ulawSample code ≤ 32124

/-- R69: ALAW2LIN's word, its completion, and its result. -/
def Obligations.Alaw2linResult : Prop :=
  ∀ (code : Byte) (s : State),
    decode (Ref.word 0x02#8 (code.setWidth 24)) = .command (.alaw2lin code) ∧
    (s.busy = false → exec (.alaw2lin code) s =
      .next { s with ovr := false, err := .none, result := BitVec.ofInt 32 (Ref.alawSample code) }) ∧
    8 ≤ (Ref.alawSample code).natAbs ∧ (Ref.alawSample code).natAbs ≤ 32256

/-- R70: LIN2ALAW's word, its completion, and its result. -/
def Obligations.Lin2alawResult : Prop :=
  ∀ (sample : Half) (s : State),
    decode (Ref.word 0x03#8 (sample.setWidth 24)) = .command (.lin2alaw sample) ∧
    (s.busy = false → exec (.lin2alaw sample) s =
      .next { s with ovr := false, err := .none, result := BitVec.ofNat 32 (Ref.alawCode sample.toInt) }) ∧
    Ref.alawCode sample.toInt < 256

/-- R71: LIN2ULAW's word, its completion, and its result. -/
def Obligations.Lin2ulawResult : Prop :=
  ∀ (sample : Half) (s : State),
    decode (Ref.word 0x04#8 (sample.setWidth 24)) = .command (.lin2ulaw sample) ∧
    (s.busy = false → exec (.lin2ulaw sample) s =
      .next { s with ovr := false, err := .none, result := BitVec.ofNat 32 (Ref.ulawCode sample.toInt) }) ∧
    Ref.ulawCode sample.toInt < 256 ∧ Ref.ulawCode sample.toInt ≠ 0x7F

/-- R72: µ-law decoding is odd-symmetric, gives multiples of 4, and has the two codes 0xFF and 0x7F for 0 and no
other value twice. -/
def Obligations.UlawDecodingSymmetry : Prop :=
  (∀ c : Byte, ulawToLinear (c ^^^ 0x80#8) = -ulawToLinear c ∧ ulawToLinear c % 4 = 0 ∧
    (ulawToLinear c).natAbs ≤ 32124) ∧
  ulawToLinear 0xFF#8 = 0 ∧ ulawToLinear 0x7F#8 = 0 ∧
  ∀ c d : Byte, ulawToLinear c = ulawToLinear d → c = d ∨ (c = 0xFF#8 ∧ d = 0x7F#8) ∨ (c = 0x7F#8 ∧ d = 0xFF#8)

/-- R73: A-law decoding is odd-symmetric, gives multiples of 8, never 0, and never the same value twice. -/
def Obligations.AlawDecodingSymmetry : Prop :=
  (∀ c : Byte, alawToLinear (c ^^^ 0x80#8) = -alawToLinear c ∧ alawToLinear c % 8 = 0 ∧
    8 ≤ (alawToLinear c).natAbs ∧ (alawToLinear c).natAbs ≤ 32256) ∧
  ∀ c d : Byte, alawToLinear c = alawToLinear d → c = d

/-- R74: the µ-law round trip is bounded at scale 4, and the bound is reached in every segment. -/
def Obligations.UlawRoundTripBound : Prop :=
  (∀ x : Int, -32768 ≤ x → x ≤ 32767 →
    (x.natAbs ≤ 8158 →
      (ulawToLinear (linearToULaw x) = 0 ↔ x = 0) ∧
      (x ≠ 0 → (ulawToLinear (linearToULaw x)).sign = x.sign) ∧
      (((ulawToLinear (linearToULaw x)).natAbs / 4 : Nat) - (x.natAbs : Int)).natAbs ≤
        2 ^ ((~~~(linearToULaw x)).extractLsb' 4 3).toNat) ∧
    (8159 ≤ x.natAbs → ulawToLinear (linearToULaw x) = x.sign * 32124)) ∧
  ∀ e : Nat, e < 8 → ∃ x : Int, x.natAbs ≤ 8158 ∧ ((~~~(linearToULaw x)).extractLsb' 4 3).toNat = e ∧
    (((ulawToLinear (linearToULaw x)).natAbs / 4 : Nat) - (x.natAbs : Int)).natAbs = 2 ^ e

/-- R75: the A-law round trip is bounded at scale 8, and the bound is reached in every segment. -/
def Obligations.AlawRoundTripBound : Prop :=
  (∀ x : Int, -32768 ≤ x → x ≤ 32767 →
    (x.natAbs ≤ 4095 →
      (0 < alawToLinear (linearToALaw x) ↔ 0 ≤ x) ∧
      (((alawToLinear (linearToALaw x)).natAbs / 8 : Nat) - (x.natAbs : Int)).natAbs ≤
        2 ^ (((linearToALaw x ^^^ 0x55#8).extractLsb' 4 3).toNat - 1)) ∧
    (4096 ≤ x.natAbs → alawToLinear (linearToALaw x) = if 0 ≤ x then 32256 else -32256)) ∧
  ∀ e : Nat, e < 8 → ∃ x : Int, x.natAbs ≤ 4095 ∧ ((linearToALaw x ^^^ 0x55#8).extractLsb' 4 3).toNat = e ∧
    (((alawToLinear (linearToALaw x)).natAbs / 8 : Nat) - (x.natAbs : Int)).natAbs = 2 ^ (e - 1)

/-- R76: re-encoding a decode, scaled down exactly, gives the code back; so LIN2ALAW produces every code and LIN2ULAW every
code but 0x7F. -/
def Obligations.ReencodingGivesTheCodeBack : Prop :=
  (∀ c : Byte, linearToALaw (alawToLinear c / 8) = c) ∧
  (∀ c : Byte, c ≠ 0x7F#8 → linearToULaw (ulawToLinear c / 4) = c) ∧
  linearToULaw (ulawToLinear 0x7F#8 / 4) = 0xFF#8 ∧
  ∀ x : Int, -32768 ≤ x → x ≤ 32767 → linearToULaw x ≠ 0x7F#8

/-! ### The pixel datapath -/

/-- R78, R82: PIX_RGB2YCC's word, its completion, its result, and the ranges of the three values. -/
def Obligations.PixRgb2yccResult : Prop :=
  ∀ (r g b : Byte) (s : State),
    decode (Ref.word 0x10#8 (r ++ g ++ b)) = .command (.pixRgb2ycc r g b) ∧
    (s.busy = false → exec (.pixRgb2ycc r g b) s = .next { s with
      ovr := false
      err := .none
      result := Ref.packed (Ref.luma601 r g b) (Ref.cb601 r g b) (Ref.cr601 r g b) }) ∧
    16 ≤ Ref.luma601 r g b ∧ Ref.luma601 r g b ≤ 235 ∧ 16 ≤ Ref.cb601 r g b ∧ Ref.cb601 r g b ≤ 240 ∧
    16 ≤ Ref.cr601 r g b ∧ Ref.cr601 r g b ≤ 240

/-- R79, R83: PIX_RGB2YCC_HP's word, its completion with any admissible parameter tuples, and its result, whose three values
are bytes. -/
def Obligations.PixRgb2yccHpResult : Prop :=
  ∀ (r g b : Byte) (s : State),
    decode (Ref.word 0x11#8 (r ++ g ++ b)) = .command (.pixRgb2yccHp r g b) ∧
    (s.busy = false → paramsAdmissible s.params = true →
      exec (.pixRgb2yccHp r g b) s = .next { s with
        ovr := false
        err := .none
        result := Ref.packed (Ref.luma444 r g b) (Ref.chroma444 s.params.cb444 r g b)
          (Ref.chroma444 s.params.cr444 r g b) } ∧
      16 ≤ Ref.luma444 r g b ∧ Ref.luma444 r g b ≤ 235 ∧
      0 ≤ Ref.chroma444 s.params.cb444 r g b ∧ Ref.chroma444 s.params.cb444 r g b ≤ 255 ∧
      0 ≤ Ref.chroma444 s.params.cr444 r g b ∧ Ref.chroma444 s.params.cr444 r g b ≤ 255)

/-- R79: a tuple is admissible exactly if d > 0 and every pixel's numerator is at least 0 and its quotient at most 255; with
another tuple the model refuses PIX_RGB2YCC_HP while BUSY is 0. R79 says only that a model refuses such a tuple: that this
command is where it does, for a bad tuple of either chroma, is the model's choice (log entry 17, DESIGN CHOICE). -/
def Obligations.ChromaAdmissibility : Prop :=
  (∀ t : Chroma444, chromaAdmissible t = true ↔
    0 < t.d ∧ ∀ r g b : Byte, 0 ≤ Ref.chromaNumerator t r g b ∧ Ref.chroma444 t r g b ≤ 255) ∧
  chromaAdmissible Params.defaultCb444 = true ∧ chromaAdmissible Params.defaultCr444 = true ∧
  ∀ (r g b : Byte) (s : State), s.busy = false →
    (chromaAdmissible s.params.cb444 = false ∨ chromaAdmissible s.params.cr444 = false) →
    exec (.pixRgb2yccHp r g b) s = .refused .inadmissibleChroma

/-- R80, R84: PIX_YCC2RGB's word, its completion and its result. -/
def Obligations.PixYcc2rgbResult : Prop :=
  ∀ (y cb cr : Byte) (s : State),
    decode (Ref.word 0x12#8 (y ++ cb ++ cr)) = .command (.pixYcc2rgb y cb cr) ∧
    (s.busy = false → exec (.pixYcc2rgb y cb cr) s = .next { s with
      ovr := false
      err := .none
      result := Ref.packed (Ref.red y cb cr) (Ref.green y cb cr) (Ref.blue y cb cr) })

/-- R85: the per-pixel round trip through the 8-bit functions is off by at most 2 in red and green and 3 in blue, by at most
1 on the grey axis, and each bound is reached. -/
def Obligations.PixelRoundTripBound : Prop :=
  (∀ r g b : Byte,
    (((yccToRgb (rgbToYcc601 ⟨r, g, b⟩)).r.toNat : Int) - r.toNat).natAbs ≤ 2 ∧
    (((yccToRgb (rgbToYcc601 ⟨r, g, b⟩)).g.toNat : Int) - g.toNat).natAbs ≤ 2 ∧
    (((yccToRgb (rgbToYcc601 ⟨r, g, b⟩)).b.toNat : Int) - b.toNat).natAbs ≤ 3) ∧
  (∀ v : Byte,
    (((yccToRgb (rgbToYcc601 ⟨v, v, v⟩)).r.toNat : Int) - v.toNat).natAbs ≤ 1 ∧
    (((yccToRgb (rgbToYcc601 ⟨v, v, v⟩)).g.toNat : Int) - v.toNat).natAbs ≤ 1 ∧
    (((yccToRgb (rgbToYcc601 ⟨v, v, v⟩)).b.toNat : Int) - v.toNat).natAbs ≤ 1) ∧
  yccToRgb (rgbToYcc601 ⟨128, 128, 128⟩) = ⟨128, 128, 128⟩ ∧
  (∃ r g b : Byte, (((yccToRgb (rgbToYcc601 ⟨r, g, b⟩)).r.toNat : Int) - r.toNat).natAbs = 2) ∧
  (∃ r g b : Byte, (((yccToRgb (rgbToYcc601 ⟨r, g, b⟩)).g.toNat : Int) - g.toNat).natAbs = 2) ∧
  (yccToRgb (rgbToYcc601 ⟨0, 4, 230⟩)).b = 227

/-! ### Frame commands at their `CMD` write -/

/-- R91: FRM_RGB2YCC with a supported format and good arguments completes its `CMD` write: JOB is latched, so BUSY is 1, and
nothing else changes. -/
def Obligations.FrmRgb2yccLatchesItsJob : Prop :=
  ∀ (s : State) (depth : Byte) (subs : BitVec 2) (dep : Depth) (sub : Subs), s.busy = false →
    Ref.format .rgb2ycc depth subs = some (dep, sub) → Ref.badArgument .rgb2ycc dep sub s.desc = false →
    exec (.frmRgb2ycc depth subs) s =
      .next { s with ovr := false, err := .none, job := some ⟨.rgb2ycc, dep, sub, s.desc⟩, raced := false }

/-- R91: FRM_YCC2RGB with its one supported format and good arguments completes its `CMD` write: JOB is latched, so BUSY is
1, and nothing else changes. -/
def Obligations.FrmYcc2rgbLatchesItsJob : Prop :=
  ∀ (s : State) (depth : Byte) (subs : BitVec 2) (dep : Depth) (sub : Subs), s.busy = false →
    Ref.format .ycc2rgb depth subs = some (dep, sub) → Ref.badArgument .ycc2rgb dep sub s.desc = false →
    exec (.frmYcc2rgb depth subs) s =
      .next { s with ovr := false, err := .none, job := some ⟨.ycc2rgb, dep, sub, s.desc⟩, raced := false }

/-- R90: a format that is not supported raises UNSUPPORTED_FORMAT, whatever the descriptor. -/
def Obligations.UnsupportedFormats : Prop :=
  ∀ (s : State) (depth : Byte) (subs : BitVec 2), s.busy = false →
    (¬((depth.toNat = 24 ∨ depth.toNat = 32) ∧ (subs.toNat = 0 ∨ subs.toNat = 1)) →
      exec (.frmRgb2ycc depth subs) s = .next { s with ovr := false, err := .unsupportedFormat }) ∧
    (¬(depth.toNat = 24 ∧ subs.toNat = 0) →
      exec (.frmYcc2rgb depth subs) s = .next { s with ovr := false, err := .unsupportedFormat })

/-- R89: with a supported format, a failed argument check raises INVALID_ARGUMENT. -/
def Obligations.InvalidArguments : Prop :=
  ∀ (s : State) (depth : Byte) (subs : BitVec 2) (dep : Depth) (sub : Subs), s.busy = false →
    (Ref.format .rgb2ycc depth subs = some (dep, sub) → Ref.badArgument .rgb2ycc dep sub s.desc = true →
      exec (.frmRgb2ycc depth subs) s = .next { s with ovr := false, err := .invalidArgument }) ∧
    (Ref.format .ycc2rgb depth subs = some (dep, sub) → Ref.badArgument .ycc2rgb dep sub s.desc = true →
      exec (.frmYcc2rgb depth subs) s = .next { s with ovr := false, err := .invalidArgument })

/-- R36, R89: a job that passed its checks has every byte of its regions below 2^32; so a platform that admits every address
admits the job. -/
def Obligations.CheckedJobsStayInTheAddressSpace : Prop :=
  ∀ j : Job, j.valid = true →
    (∀ r ∈ j.regions, ∀ a ∈ r.addrs, a ≤ 0xFFFFFFFF) ∧ ∀ q : Params, q.absent = [] → j.admitted q = true

/-! ### Frames of the commands -/

/-- What a NOP, compander or PIX command leaves: everything but OVR, ERR and RESULT, and RESULT for NOP; dropped, it
leaves all but OVR. No form stores to memory. -/
def Obligations.ImmediateCommandFrame : Prop :=
  ∀ (i : Instr) (s t : State), isFrame i = false → exec i s = .next t →
    t.desc = s.desc ∧ t.job = s.job ∧ t.raced = s.raced ∧ t.params = s.params ∧ Ref.sameHost s t ∧
    (∀ a, t.mem.read a = s.mem.read a) ∧
    (s.busy = true → t.ovr = true ∧ t.err = s.err ∧ t.result = s.result) ∧
    (s.busy = false → t.ovr = false ∧ t.err = .none ∧ (i = .nop → t.result = s.result))

/-- What a frame command's `CMD` write leaves: RESULT, the descriptor, memory, the parameters; where it is dropped or fails,
JOB too; and BUSY is 1 afterwards exactly if it was before or no error was raised. -/
def Obligations.FrameCommandFrame : Prop :=
  ∀ (i : Instr) (s t : State), isFrame i = true → exec i s = .next t →
    t.result = s.result ∧ t.desc = s.desc ∧ t.params = s.params ∧ Ref.sameHost s t ∧
    (∀ a, t.mem.read a = s.mem.read a) ∧
    (s.busy = true → t.ovr = true ∧ t.err = s.err ∧ t.job = s.job ∧ t.raced = s.raced) ∧
    (s.busy = false → t.ovr = false ∧ (t.busy = true ↔ t.err = .none) ∧ (t.err ≠ .none → t.job = s.job)) ∧
    ∀ j, s.busy = false → t.job = some j → j.desc = s.desc ∧ j.valid = true

/-! ### Completion -/

/-- R92: what completing a 4:4:4 forward job writes. -/
def Obligations.Forward444Planes : Prop :=
  ∀ (s : State) (j : Job), cleanJob s j → j.op = .rgb2ycc → j.subs = .s444 → j.valid = true → Ref.canComplete s j →
    ∃ t, engineTurn s = .next t ∧ t.busy = false ∧
      ∀ r c : Nat, r < j.desc.height.toNat → c < j.desc.width.toNat → ∀ p : Rgb,
        p = Ref.pixel s.params s.mem (j.desc.rgbAddr.toNat + (j.desc.height.toNat - 1 - r) * j.desc.rgbStride.toNat +
          c * (Ref.depthBits j.depth / 8)) →
        ((t.mem.read (j.desc.yAddr.toNat + r * j.desc.yStride.toNat + c)).toNat : Int) = Ref.luma444 p.r p.g p.b ∧
        ((t.mem.read (j.desc.cbAddr.toNat + r * j.desc.cbStride.toNat + c)).toNat : Int) =
          Ref.chroma444 s.params.cb444 p.r p.g p.b ∧
        ((t.mem.read (j.desc.crAddr.toNat + r * j.desc.crStride.toNat + c)).toNat : Int) =
          Ref.chroma444 s.params.cr444 p.r p.g p.b

/-- R93: what completing a 4:2:0 forward job writes: luma per pixel, chroma the floor of the average of the four values of a
2×2 block. -/
def Obligations.Forward420Planes : Prop :=
  ∀ (s : State) (j : Job), cleanJob s j → j.op = .rgb2ycc → j.subs = .s420 → j.valid = true → Ref.canComplete s j →
    ∃ t, engineTurn s = .next t ∧ t.busy = false ∧
      ∀ px : Nat → Nat → Rgb,
        (∀ r c, px r c = Ref.pixel s.params s.mem (j.desc.rgbAddr.toNat +
          (j.desc.height.toNat - 1 - r) * j.desc.rgbStride.toNat + c * (Ref.depthBits j.depth / 8))) →
        (∀ r c : Nat, r < j.desc.height.toNat → c < j.desc.width.toNat →
          ((t.mem.read (j.desc.yAddr.toNat + r * j.desc.yStride.toNat + c)).toNat : Int) =
            Ref.luma601 (px r c).r (px r c).g (px r c).b) ∧
        ∀ i k : Nat, i < j.desc.height.toNat / 2 → k < j.desc.width.toNat / 2 → ∀ cb cr : Nat → Nat → Int,
          (∀ r c, cb r c = Ref.cb601 (px r c).r (px r c).g (px r c).b) →
          (∀ r c, cr r c = Ref.cr601 (px r c).r (px r c).g (px r c).b) →
          ((t.mem.read (j.desc.cbAddr.toNat + i * j.desc.cbStride.toNat + k)).toNat : Int) =
            (cb (2 * i) (2 * k) + cb (2 * i) (2 * k + 1) + cb (2 * i + 1) (2 * k) + cb (2 * i + 1) (2 * k + 1)) / 4 ∧
          ((t.mem.read (j.desc.crAddr.toNat + i * j.desc.crStride.toNat + k)).toNat : Int) =
            (cr (2 * i) (2 * k) + cr (2 * i) (2 * k + 1) + cr (2 * i + 1) (2 * k) + cr (2 * i + 1) (2 * k + 1)) / 4

/-- R94: what completing an inverse job writes: chroma replicated to 2×2 pixels, rows not flipped, three bytes a pixel. -/
def Obligations.InverseFrame : Prop :=
  ∀ (s : State) (j : Job), cleanJob s j → j.op = .ycc2rgb → j.valid = true → Ref.canComplete s j →
    ∃ t, engineTurn s = .next t ∧ t.busy = false ∧
      ∀ r c : Nat, r < j.desc.height.toNat → c < j.desc.width.toNat → ∀ (y cb cr : Byte) (p : Rgb),
        y = s.mem.read (j.desc.yAddr.toNat + r * j.desc.yStride.toNat + c) →
        cb = s.mem.read (j.desc.cbAddr.toNat + r / 2 * j.desc.cbStride.toNat + c / 2) →
        cr = s.mem.read (j.desc.crAddr.toNat + r / 2 * j.desc.crStride.toNat + c / 2) →
        p = Ref.pixel s.params t.mem (j.desc.rgbAddr.toNat + r * j.desc.rgbStride.toNat + 3 * c) →
        (p.r.toNat : Int) = Ref.red y cb cr ∧ (p.g.toNat : Int) = Ref.green y cb cr ∧
        (p.b.toNat : Int) = Ref.blue y cb cr

/-- R95, R96: completion leaves every byte outside the destination regions, ERR, OVR, RESULT, the descriptor and the
parameters, and clears BUSY. -/
def Obligations.CompletionFrame : Prop :=
  ∀ (s t : State) (j : Job), s.job = some j → engineTurn s = .next t →
    t.busy = false ∧ t.err = s.err ∧ t.ovr = s.ovr ∧ t.result = s.result ∧ t.desc = s.desc ∧ t.params = s.params ∧
    t.host = s.host ∧ t.turns = s.turns ∧ t.replies = s.replies ∧
    ∀ a, inRegions j.dests a = false → t.mem.read a = s.mem.read a

/-- R97: where the regions overlap the job completes with every destination byte any value (the model's free value of that
address and draw, log entry 11), and no error. -/
def Obligations.OverlapGivesFreeBytes : Prop :=
  ∀ (s : State) (j : Job), s.job = some j → j.overlaps = true → Ref.canComplete s j →
    ∃ t, engineTurn s = .next t ∧ t.busy = false ∧ t.err = s.err ∧
      ∀ a, inRegions j.dests a = true → t.mem.read a = Config.freeByte s.draws a

/-- R42: a host write to a byte of the job's regions while BUSY makes every destination byte any value at completion (the
model's free value, log entry 11), and a host read of a destination byte while BUSY returns any value. -/
def Obligations.RacesGiveFreeBytes : Prop :=
  ∀ (s : State) (j : Job) (x : Word), s.job = some j → Ref.canComplete s j →
    (inRegions j.regions x.toNat = true → ∀ b : Byte,
      ∃ t u, hostAct (.memWrite x b) s = .next t ∧ engineTurn t = .next u ∧ u.busy = false ∧
        ∀ a, inRegions j.dests a = true → u.mem.read a = Config.freeByte s.draws a) ∧
    (inRegions j.dests x.toNat = true →
      ∃ t, hostAct (.memRead x) s = .next t ∧ t.busy = true ∧
        t.replies = .mem x (Config.freeByte s.draws x.toNat) :: s.replies)

/-- R41, R44: after a completion, a host that reads STATUS sees BUSY = 0, and from then on reads of memory return what the
job wrote. Before that a read of a destination byte returns any value (the model's reading of R115, log entry 13). -/
def Obligations.OutputIsSeenAfterReadingStatus : Prop :=
  ∀ (s t : State) (j : Job) (x : Word), s.job = some j → engineTurn s = .next t → admits s.params x.toNat = true →
    (∃ u v, hostAct (rdOp t.params 0x04) t = .next u ∧ u.replies = .reg 0x04 (statusWord t) :: t.replies ∧
      (statusWord t).getLsbD 0 = false ∧ hostAct (.memRead x) u = .next v ∧
      v.replies = .mem x (t.mem.read x.toNat) :: u.replies) ∧
    (inRegions j.dests x.toNat = true →
      ∃ v, hostAct (.memRead x) t = .next v ∧ v.replies = .mem x (Config.freeByte t.draws x.toNat) :: t.replies)

/-- R36: where the platform does not admit a byte of the job's regions the engine is stuck at completion, which is the
model's fault `engineStuck` (log entry 15). That the host moves next where the scheduler has made no choice is the model's
default schedule (log entry 5, DESIGN CHOICE). -/
def Obligations.EngineIsStuckOnAbsentMemory : Prop :=
  ∀ (s : State) (j : Job) (r : Region) (a : Nat), s.job = some j → r ∈ j.regions → a ∈ r.addrs →
    admits s.params a = false → engineTurn s = .fault .engineStuck ∧ (s.turns = [] → nextTurn s = .host)

/-- R98: with the default chroma tuples a forward job writes luma in 16..235 and chroma in 16..240. -/
def Obligations.PlaneRanges : Prop :=
  ∀ (s : State) (j : Job), cleanJob s j → j.op = .rgb2ycc → j.valid = true → Ref.canComplete s j →
    s.params.cb444 = Params.defaultCb444 → s.params.cr444 = Params.defaultCr444 →
    ∃ t, engineTurn s = .next t ∧
      (∀ a ∈ j.yRegion.addrs, 16 ≤ (t.mem.read a).toNat ∧ (t.mem.read a).toNat ≤ 235) ∧
      (∀ a ∈ j.cbRegion.addrs, 16 ≤ (t.mem.read a).toNat ∧ (t.mem.read a).toNat ≤ 240) ∧
      (∀ a ∈ j.crRegion.addrs, 16 ≤ (t.mem.read a).toNat ∧ (t.mem.read a).toNat ≤ 240)

/-- R86: the fourth byte of a 32-bit pixel never affects a result: two runs whose memories differ in fourth bytes of the
source alone leave the same destination bytes. -/
def Obligations.FourthByteIsIgnored : Prop :=
  ∀ (s : State) (j : Job) (m : Memory), cleanJob s j → j.op = .rgb2ycc → j.depth = .d32 → j.valid = true →
    Ref.canComplete s j →
    (∀ a, (∀ r c : Nat, r < j.desc.height.toNat → c < j.desc.width.toNat →
        a ≠ j.desc.rgbAddr.toNat + r * j.desc.rgbStride.toNat + 4 * c + 3) → m.read a = s.mem.read a) →
    ∃ t u, engineTurn s = .next t ∧ engineTurn { s with mem := m } = .next u ∧
      ∀ a, inRegions j.dests a = true → u.mem.read a = t.mem.read a

/-! ### Steps and runs -/

/-- A step in which the host writes a word to `CMD` issues it: a word that decodes to a well-formed command runs `exec` of
it, any other word raises ILLEGAL_CMD or is dropped (R61). The host's operation and the turn are taken off their lists
first. `withFetchWord` makes the very next step such a step: the model's choice of how a command is loaded from outside
(log entry 8, DESIGN CHOICE). -/
def Obligations.StepRunsTheDecodedCommand : Prop :=
  (∀ (s : State) (w : Word) (rest : List HostOp), nextTurn s = .host → s.host = wrOp s.params 0x00 w :: rest →
    (∀ i, decode w = .command i → i.wellFormed = true →
      step s = exec i { s with host := rest, turns := s.turns.tail }) ∧
    (∀ why, decode w = .illegal why → s.busy = false →
      step s = .next { s with host := rest, turns := s.turns.tail, ovr := false, err := .illegalCmd }) ∧
    (∀ why, decode w = .illegal why → s.busy = true →
      step s = .next { s with host := rest, turns := s.turns.tail, ovr := true })) ∧
  ∀ (s : State) (i : Instr), i.wellFormed = true → step (s.withFetchWord 32 (encode i).toNat) = exec i s

/-- At reset the invariant holds, no job is in flight and no race is marked. -/
def Obligations.InvariantAtReset : Prop :=
  Inv State.reset ∧ State.reset.job = none ∧ State.reset.raced = false

/-- Every step keeps the invariant: memory in canonical form, JOB a job that passed its checks, a race only while BUSY. -/
def Obligations.StepKeepsTheInvariant : Prop :=
  ∀ s t : State, Inv s → step s = .next t → Inv t

/-- R15: the parameters are fixed for the life of the instance. -/
def Obligations.ParametersAreNeverWritten : Prop :=
  ∀ s t : State, step s = .next t → t.params = s.params

/-- R37: the platform chooses the base of the register window. A host program given by its offsets (R60) does the same at
every base: the same stops, and the same next state but for the base and the addresses of the accesses to come. That a
register access below the window is refused is the model's choice (log entry 20, DESIGN CHOICE). -/
def Obligations.WindowBaseOnlyMovesTheWindow : Prop :=
  (∀ (s : State) (ops : List HostOp) (b c : Nat),
    (∀ f, step (Ref.atBase b ops s) = .fault f → step (Ref.atBase c ops s) = .fault f) ∧
    (∀ r, step (Ref.atBase b ops s) = .refused r → step (Ref.atBase c ops s) = .refused r) ∧
    ∀ t, step (Ref.atBase b ops s) = .next t →
      ∃ rest, t = Ref.atBase b rest t ∧ step (Ref.atBase c ops s) = .next (Ref.atBase c rest t)) ∧
  ∀ (s : State) (size : AccessSize) (addr : Nat) (w m v : Word), addr < s.params.windowBase →
    hostAct (.write size addr w) s = .refused .registerAccess ∧
    hostAct (.read size addr) s = .refused .registerAccess ∧ hostAct (.poll addr m v) s = .refused .registerAccess

/-- R28, R64: a job in flight stays as it was latched, and BUSY stays 1, until the engine completes it or a reset abandons
it. -/
def Obligations.JobEndsOnlyByEngineOrReset : Prop :=
  ∀ (s t : State) (j : Job), s.job = some j → step s = .next t →
    (nextTurn s = .host ∧ t.job = some j) ∨ (nextTurn s = .engine ∧ t.job = none) ∨
    (nextTurn s = .reset ∧ t.job = none)

/-- R20: only reset and an accepted immediate command other than NOP change RESULT. -/
def Obligations.ResultIsWrittenByImmediateCommandsOnly : Prop :=
  ∀ s t : State, step s = .next t → t.result ≠ s.result →
    nextTurn s = .reset ∨
    (nextTurn s = .host ∧ s.busy = false ∧ ∃ (i : Instr) (w : Word) (rest : List HostOp),
      s.host = wrOp s.params 0x00 w :: rest ∧ decode w = .command i ∧ isFrame i = false ∧ i ≠ .nop)

/-- R99, R104: only reset and an accepted `CMD` write change ERR: no trap, no completion and no dropped write does. -/
def Obligations.ErrIsWrittenByAcceptedCommandsOnly : Prop :=
  ∀ s t : State, step s = .next t → t.err ≠ s.err →
    nextTurn s = .reset ∨
    (nextTurn s = .host ∧ s.busy = false ∧ ∃ (w : Word) (rest : List HostOp), s.host = wrOp s.params 0x00 w :: rest)

/-- R117: a frame command whose completion stays enabled completes: whatever finite choices the scheduler still has, short
of a reset, and whatever the host does within its contract, BUSY is 0 after at most one step more than there are choices.
The bound is that of the model's default schedule (log entry 5); the spec gives none. -/
def Obligations.FramesEventuallyComplete : Prop :=
  ∀ (s : State) (j : Job), s.job = some j → Ref.canComplete s j → (∀ op ∈ s.host, op.legal s.params = true) →
    Turn.reset ∉ s.turns →
    ∃ (n : Nat) (t : State), n ≤ s.turns.length + 1 ∧ runSteps n s = .next t ∧ t.busy = false
end

