-- ==== Sys2Proof/Laws/Encoding.lean ====
section
/-! SUPPORT. Fields of concatenated words (00_scope.md R7: `{a, b}` has `a` in the more significant place). Their widths
are variables, so that they apply to words of any layout. -/

namespace Sys2Proof

/-- A field inside the lower part. -/
theorem extract_lower {w v : Nat} (x : BitVec w) (y : BitVec v) (start len : Nat) (h : start + len ≤ v) :
    (x ++ y).extractLsb' start len = y.extractLsb' start len := by
  apply BitVec.eq_of_getLsbD_eq
  intro k hk
  have h1 : start + k < v := by omega
  simp [BitVec.getLsbD_append, h1]

/-- A field inside the upper part. -/
theorem extract_upper {w v : Nat} (x : BitVec w) (y : BitVec v) (start len : Nat) (h : v ≤ start) :
    (x ++ y).extractLsb' start len = x.extractLsb' (start - v) len := by
  apply BitVec.eq_of_getLsbD_eq
  intro k hk
  have h1 : ¬ start + k < v := by omega
  have h2 : start + k - v = start - v + k := by omega
  simp [BitVec.getLsbD_append, h1, h2]

/-- The whole upper part. -/
theorem extract_whole_upper {w v : Nat} (x : BitVec w) (y : BitVec v) : (x ++ y).extractLsb' v w = x := by
  rw [extract_upper x y v w le_rfl]
  simp

/-- Splitting a word into two fields and joining them gives the word back. -/
theorem append_extract {n : Nat} (v len : Nat) (w : BitVec n) :
    (w.extractLsb' v len ++ w.extractLsb' 0 v) = w.extractLsb' 0 (len + v) := by
  apply BitVec.eq_of_getLsbD_eq
  intro k hk
  simp only [BitVec.getLsbD_append, BitVec.getLsbD_extractLsb', hk, decide_true, Bool.true_and]
  split
  · simp [*]
  · have h1 : k - v < len := by omega
    have h2 : v + (k - v) = k := by omega
    simp [h1, h2]

end Sys2Proof
end

