-- ==== Sys2Proof/Laws/Memory.lean ====
section
/-! SUPPORT. The laws of bus memory: a read after a write, writes one after another, and the canonical form, which every
memory operation keeps. -/

namespace Sys2Proof.Machine

/-! ### Cells -/

theorem readCells_filter_ne (a x : Nat) (h : x ≠ a) (cs : List Host.Cell) :
    readCells (cs.filter fun c => c.1 ≠ a) x = readCells cs x := by
  induction cs with
  | nil => rfl
  | cons c rest ih =>
    obtain ⟨k, v⟩ := c
    rw [List.filter_cons]
    split
    · simp only [readCells, ih]
    · rename_i hk
      have hk : k = a := by simpa using hk
      have hx : k ≠ x := by omega
      simp only [readCells, hx, if_false, ih]

theorem readCells_filter_self (a : Nat) (cs : List Host.Cell) :
    readCells (cs.filter fun c => c.1 ≠ a) a = 0 := by
  induction cs with
  | nil => rfl
  | cons c rest ih =>
    obtain ⟨k, v⟩ := c
    rw [List.filter_cons]
    split
    · rename_i hk
      have hk : k ≠ a := by simpa using hk
      simp only [readCells, hk, if_false, ih]
    · exact ih

theorem readCells_insert_ne (a x : Nat) (b : Byte) (h : x ≠ a) (cs : List Host.Cell) :
    readCells (insertCell a b cs) x = readCells cs x := by
  induction cs with
  | nil => simp [insertCell, readCells, Ne.symm h]
  | cons c rest ih =>
    obtain ⟨k, v⟩ := c
    unfold insertCell
    split
    · simp [readCells, Ne.symm h]
    · simp [readCells, ih]

theorem readCells_insert_self (a : Nat) (b : Byte) (cs : List Host.Cell) (h : ∀ c ∈ cs, c.1 ≠ a) :
    readCells (insertCell a b cs) a = b := by
  induction cs with
  | nil => simp [insertCell, readCells]
  | cons c rest ih =>
    obtain ⟨k, v⟩ := c
    have hk : k ≠ a := h (k, v) (by simp)
    unfold insertCell
    split
    · simp [readCells]
    · simp [readCells, hk, ih fun c hc => h c (by simp [hc])]

theorem mem_insertCell (a : Nat) (b : Byte) (cs : List Host.Cell) (c : Host.Cell) :
    c ∈ insertCell a b cs ↔ c = (a, b) ∨ c ∈ cs := by
  induction cs with
  | nil => simp [insertCell]
  | cons d rest ih =>
    obtain ⟨k, v⟩ := d
    unfold insertCell
    split
    · simp
    · simp only [List.mem_cons, ih]
      tauto

theorem insertCell_sorted (a : Nat) (b : Byte) (cs : List Host.Cell)
    (hs : cs.Pairwise fun x y => x.1 < y.1) (hne : ∀ c ∈ cs, c.1 ≠ a) :
    (insertCell a b cs).Pairwise fun x y => x.1 < y.1 := by
  induction cs with
  | nil => simp [insertCell]
  | cons d rest ih =>
    obtain ⟨k, v⟩ := d
    obtain ⟨hd, hrest⟩ := List.pairwise_cons.mp hs
    unfold insertCell
    split
    · rename_i hlt
      refine List.pairwise_cons.mpr ⟨?_, hs⟩
      intro c hc
      rcases List.mem_cons.mp hc with rfl | hc
      · exact hlt
      · exact lt_trans hlt (hd c hc)
    · rename_i hlt
      have hka : k ≠ a := hne (k, v) (by simp)
      refine List.pairwise_cons.mpr ⟨?_, ih hrest fun c hc => hne c (by simp [hc])⟩
      intro c hc
      rcases (mem_insertCell a b rest c).mp hc with rfl | hc
      · simp only; omega
      · exact hd c hc

/-! ### Memory -/

@[simp] theorem read_empty (a : Nat) : Memory.empty.read a = 0 := rfl

/-- A read after a write to the same address gives the byte written. -/
@[simp] theorem read_write_self (m : Memory) (a : Nat) (b : Byte) : (m.write a b).read a = b := by
  unfold Memory.write Memory.read
  by_cases hb : b = 0
  · simp only [hb, if_true]
    exact readCells_filter_self a m.cells
  · simp only [hb, if_false]
    exact readCells_insert_self a b _ (by simp)

/-- A write leaves every other address alone. -/
theorem read_write_ne (m : Memory) (a x : Nat) (b : Byte) (h : x ≠ a) : (m.write a b).read x = m.read x := by
  unfold Memory.write Memory.read
  by_cases hb : b = 0
  · simp only [hb, if_true]
    exact readCells_filter_ne a x h m.cells
  · simp only [hb, if_false]
    rw [readCells_insert_ne a x b h]
    exact readCells_filter_ne a x h m.cells

/-- The byte at `x` after a write to `a`. -/
theorem read_write (m : Memory) (a x : Nat) (b : Byte) :
    (m.write a b).read x = if x = a then b else m.read x := by
  split
  · subst_vars; simp
  · exact read_write_ne m a x b ‹_›

/-- An address that no cell names keeps its byte. -/
theorem read_writeAll_of_not_mem (cs : List Host.Cell) (m : Memory) (x : Nat) (h : ∀ c ∈ cs, c.1 ≠ x) :
    (m.writeAll cs).read x = m.read x := by
  induction cs generalizing m with
  | nil => rfl
  | cons c rest ih =>
    have hc : x ≠ c.1 := fun e => h c (by simp) e.symm
    have := ih (m.write c.1 c.2) fun d hd => h d (by simp [hd])
    simpa [Memory.writeAll, read_write_ne m c.1 x c.2 hc] using this

/-- An address that some cell names takes the byte on which all of its cells agree. -/
theorem read_writeAll_of_mem (cs : List Host.Cell) (m : Memory) (x : Nat) (b : Byte)
    (hx : ∃ c ∈ cs, c.1 = x) (hb : ∀ c ∈ cs, c.1 = x → c.2 = b) : (m.writeAll cs).read x = b := by
  induction cs generalizing m with
  | nil => simp at hx
  | cons c rest ih =>
    by_cases hr : ∃ d ∈ rest, d.1 = x
    · exact ih (m.write c.1 c.2) hr fun d hd => hb d (by simp [hd])
    · obtain ⟨d, hd, hdx⟩ := hx
      have hcd : d = c := by
        rcases List.mem_cons.mp hd with h | h
        · exact h
        · exact absurd ⟨d, h, hdx⟩ hr
      subst hcd
      have hrest : ((m.write d.1 d.2).writeAll rest).read x = (m.write d.1 d.2).read x :=
        read_writeAll_of_not_mem rest _ x fun e he hex => hr ⟨e, he, hex⟩
      have hval : d.2 = b := hb d (by simp) hdx
      change ((m.write d.1 d.2).writeAll rest).read x = b
      rw [hrest, ← hdx, read_write_self, hval]

theorem writeAll_append (m : Memory) (cs ds : List Host.Cell) :
    m.writeAll (cs ++ ds) = (m.writeAll cs).writeAll ds := by
  simp [Memory.writeAll, List.foldl_append]

/-! ### The canonical form -/

theorem empty_wf : Memory.empty.wf := by decide

/-- A write inside the address space keeps the canonical form. -/
theorem write_wf (m : Memory) (a : Nat) (b : Byte) (h : m.wf) (ha : a < Config.addressSpace) :
    (m.write a b).wf := by
  obtain ⟨hs, hc⟩ := h
  have hs' : (m.cells.filter fun c => c.1 ≠ a).Pairwise fun x y => x.1 < y.1 :=
    hs.sublist List.filter_sublist
  have hc' : ∀ c ∈ m.cells.filter (fun c => c.1 ≠ a), c.2 ≠ 0#8 ∧ c.1 < Config.addressSpace :=
    fun c hm => hc c (List.mem_of_mem_filter hm)
  unfold Memory.write
  by_cases hb : b = 0
  · simp only [hb, if_true]
    exact ⟨hs', hc'⟩
  · simp only [hb, if_false]
    refine ⟨insertCell_sorted a b _ hs' (by simp), fun c hm => ?_⟩
    rcases (mem_insertCell a b _ c).mp hm with rfl | hm
    · exact ⟨hb, ha⟩
    · exact hc' c hm

/-- Writes inside the address space keep the canonical form. -/
theorem writeAll_wf (cs : List Host.Cell) (m : Memory) (h : m.wf) (hc : ∀ c ∈ cs, c.1 < Config.addressSpace) :
    (m.writeAll cs).wf := by
  induction cs generalizing m with
  | nil => exact h
  | cons c rest ih =>
    exact ih (m.write c.1 c.2) (write_wf m c.1 c.2 h (hc c (by simp))) fun d hd => hc d (by simp [hd])

/-- An admitted address lies in the address space (20_memory.md R36). -/
theorem admits_lt (p : Params) (a : Nat) (h : admits p a = true) : a < Config.addressSpace := by
  simp [admits] at h
  exact h.1

end Sys2Proof.Machine
end

