-- ==== Sys2Proof/Laws/Region.lean ====
section
/-! SUPPORT. Regions of bus memory (43_color_frame.md R88): their bytes, the cells that fill them, and the free cells. -/

namespace Sys2Proof.Machine

/-- The bytes of a region, as R88 gives them. -/
theorem mem_addrs (r : Region) (a : Nat) :
    a ∈ r.addrs ↔ ∃ i < r.rows, ∃ k < r.rowBytes, a = r.base + i * r.stride + k := by
  simp only [Region.addrs, List.mem_flatMap, List.mem_range, List.mem_map]
  constructor
  · rintro ⟨i, hi, k, hk, rfl⟩; exact ⟨i, hi, k, hk, rfl⟩
  · rintro ⟨i, hi, k, hk, rfl⟩; exact ⟨i, hi, k, hk, rfl⟩

theorem contains_iff (r : Region) (a : Nat) :
    r.contains a = true ↔ ∃ i < r.rows, ∃ k < r.rowBytes, a = r.base + i * r.stride + k := by
  simp only [Region.contains, List.any_eq_true, List.mem_range, Bool.and_eq_true, decide_eq_true_eq]
  constructor
  · rintro ⟨i, hi, h1, h2⟩
    exact ⟨i, hi, a - (r.base + i * r.stride), by omega, by omega⟩
  · rintro ⟨i, hi, k, hk, rfl⟩
    exact ⟨i, hi, by omega, by omega⟩

theorem contains_iff_mem (r : Region) (a : Nat) : r.contains a = true ↔ a ∈ r.addrs := by
  rw [contains_iff, mem_addrs]

theorem inRegions_iff (rs : List Region) (a : Nat) : inRegions rs a = true ↔ ∃ r ∈ rs, a ∈ r.addrs := by
  simp [inRegions, contains_iff_mem]

theorem meets_iff (r q : Region) : r.meets q = true ↔ ∃ a, a ∈ r.addrs ∧ a ∈ q.addrs := by
  simp [Region.meets, contains_iff_mem]

/-- The cells that fill a region. -/
theorem mem_fill (r : Region) (f : Nat → Nat → Byte) (c : Host.Cell) :
    c ∈ r.fill f ↔ ∃ i < r.rows, ∃ k < r.rowBytes, c = (r.base + i * r.stride + k, f i k) := by
  simp only [Region.fill, List.mem_flatMap, List.mem_range, List.mem_map]
  constructor
  · rintro ⟨i, hi, k, hk, rfl⟩; exact ⟨i, hi, k, hk, rfl⟩
  · rintro ⟨i, hi, k, hk, rfl⟩; exact ⟨i, hi, k, hk, rfl⟩

/-- A fill names the region's own bytes only. -/
theorem fill_addr (r : Region) (f : Nat → Nat → Byte) (c : Host.Cell) (h : c ∈ r.fill f) : c.1 ∈ r.addrs := by
  obtain ⟨i, hi, k, hk, rfl⟩ := (mem_fill r f c).mp h
  exact (mem_addrs r _).mpr ⟨i, hi, k, hk, rfl⟩

/-- Where the stride covers a row, row and column of a byte are unique (R89, check 3). -/
theorem region_injective (r : Region) (h : r.rowBytes ≤ r.stride) {i k i' k' : Nat} (hk : k < r.rowBytes)
    (hk' : k' < r.rowBytes) (e : r.base + i * r.stride + k = r.base + i' * r.stride + k') : i = i' ∧ k = k' := by
  have hkk : k < r.stride := by omega
  have hkk' : k' < r.stride := by omega
  have e' : i * r.stride + k = i' * r.stride + k' := by omega
  have hi : i = i' := by
    have h1 : (i * r.stride + k) / r.stride = i := by
      rw [Nat.mul_comm, Nat.mul_add_div (by omega), Nat.div_eq_of_lt hkk, Nat.add_zero]
    have h2 : (i' * r.stride + k') / r.stride = i' := by
      rw [Nat.mul_comm, Nat.mul_add_div (by omega), Nat.div_eq_of_lt hkk', Nat.add_zero]
    rw [← h1, ← h2, e']
  subst hi
  exact ⟨rfl, by omega⟩

/-- A fill gives each byte of the region its value, where the stride covers a row. -/
theorem read_fill (r : Region) (f : Nat → Nat → Byte) (m : Memory) (h : r.rowBytes ≤ r.stride) {i k : Nat}
    (hi : i < r.rows) (hk : k < r.rowBytes) :
    (m.writeAll (r.fill f)).read (r.base + i * r.stride + k) = f i k := by
  refine read_writeAll_of_mem _ _ _ _ ⟨_, (mem_fill r f _).mpr ⟨i, hi, k, hk, rfl⟩, rfl⟩ ?_
  intro c hc e
  obtain ⟨i', _, k', hk', rfl⟩ := (mem_fill r f c).mp hc
  obtain ⟨rfl, rfl⟩ := region_injective r h hk' hk e
  rfl

/-- A fill leaves every byte outside the region alone. -/
theorem read_fill_outside (r : Region) (f : Nat → Nat → Byte) (m : Memory) {a : Nat} (h : a ∉ r.addrs) :
    (m.writeAll (r.fill f)).read a = m.read a :=
  read_writeAll_of_not_mem _ _ _ fun c hc e => h (e ▸ fill_addr r f c hc)

/-- Regions that do not meet have no byte in common. -/
theorem not_mem_of_not_meets {r q : Region} (h : r.meets q = false) {a : Nat} (ha : a ∈ r.addrs) : a ∉ q.addrs := by
  intro hb
  have := (meets_iff r q).mpr ⟨a, ha, hb⟩
  simp [h] at this

/-- The free cells name the admitted bytes of the regions, each with its draw. -/
theorem mem_freeCells (p : Params) (n : Nat) (rs : List Region) (c : Host.Cell) :
    c ∈ freeCells p n rs ↔
      (∃ r ∈ rs, c.1 ∈ r.addrs) ∧ admits p c.1 = true ∧ c.2 = Config.freeByte n c.1 := by
  obtain ⟨a, b⟩ := c
  simp only [freeCells, List.mem_map, List.mem_filter, List.mem_flatMap, Prod.mk.injEq]
  constructor
  · rintro ⟨x, ⟨hx, ha⟩, rfl, rfl⟩; exact ⟨hx, ha, rfl⟩
  · rintro ⟨hx, ha, rfl⟩; exact ⟨a, ⟨hx, ha⟩, rfl, rfl⟩

end Sys2Proof.Machine
end

