-- ==== Sys2Proof/Laws/State.lean ====
section
/-! SUPPORT. What each named update of the state does to each field, so that no proof unfolds a record update. -/

namespace Sys2Proof.Machine

variable (s : State)

/-! ### `State.accept` -/

@[simp] theorem accept_ovr : (s.accept).ovr = false := rfl
@[simp] theorem accept_err : (s.accept).err = .none := rfl
@[simp] theorem accept_result : (s.accept).result = s.result := rfl
@[simp] theorem accept_desc : (s.accept).desc = s.desc := rfl
@[simp] theorem accept_job : (s.accept).job = s.job := rfl
@[simp] theorem accept_raced : (s.accept).raced = s.raced := rfl
@[simp] theorem accept_mem : (s.accept).mem = s.mem := rfl
@[simp] theorem accept_params : (s.accept).params = s.params := rfl
@[simp] theorem accept_host : (s.accept).host = s.host := rfl
@[simp] theorem accept_turns : (s.accept).turns = s.turns := rfl
@[simp] theorem accept_replies : (s.accept).replies = s.replies := rfl
@[simp] theorem accept_unseen : (s.accept).unseen = s.unseen := rfl
@[simp] theorem accept_draws : (s.accept).draws = s.draws := rfl
@[simp] theorem accept_busy : (s.accept).busy = s.busy := rfl

/-! ### `State.drop` -/

@[simp] theorem drop_ovr : (s.drop).ovr = true := rfl
@[simp] theorem drop_err : (s.drop).err = s.err := rfl
@[simp] theorem drop_result : (s.drop).result = s.result := rfl
@[simp] theorem drop_desc : (s.drop).desc = s.desc := rfl
@[simp] theorem drop_job : (s.drop).job = s.job := rfl
@[simp] theorem drop_raced : (s.drop).raced = s.raced := rfl
@[simp] theorem drop_mem : (s.drop).mem = s.mem := rfl
@[simp] theorem drop_params : (s.drop).params = s.params := rfl
@[simp] theorem drop_host : (s.drop).host = s.host := rfl
@[simp] theorem drop_turns : (s.drop).turns = s.turns := rfl
@[simp] theorem drop_replies : (s.drop).replies = s.replies := rfl
@[simp] theorem drop_unseen : (s.drop).unseen = s.unseen := rfl
@[simp] theorem drop_draws : (s.drop).draws = s.draws := rfl
@[simp] theorem drop_busy : (s.drop).busy = s.busy := rfl

/-! ### `State.raise` -/

@[simp] theorem raise_ovr (c : ErrCode) : (s.raise c).ovr = s.ovr := rfl
@[simp] theorem raise_err (c : ErrCode) : (s.raise c).err = c := rfl
@[simp] theorem raise_result (c : ErrCode) : (s.raise c).result = s.result := rfl
@[simp] theorem raise_desc (c : ErrCode) : (s.raise c).desc = s.desc := rfl
@[simp] theorem raise_job (c : ErrCode) : (s.raise c).job = s.job := rfl
@[simp] theorem raise_raced (c : ErrCode) : (s.raise c).raced = s.raced := rfl
@[simp] theorem raise_mem (c : ErrCode) : (s.raise c).mem = s.mem := rfl
@[simp] theorem raise_params (c : ErrCode) : (s.raise c).params = s.params := rfl
@[simp] theorem raise_host (c : ErrCode) : (s.raise c).host = s.host := rfl
@[simp] theorem raise_turns (c : ErrCode) : (s.raise c).turns = s.turns := rfl
@[simp] theorem raise_replies (c : ErrCode) : (s.raise c).replies = s.replies := rfl
@[simp] theorem raise_unseen (c : ErrCode) : (s.raise c).unseen = s.unseen := rfl
@[simp] theorem raise_draws (c : ErrCode) : (s.raise c).draws = s.draws := rfl
@[simp] theorem raise_busy (c : ErrCode) : (s.raise c).busy = s.busy := rfl

/-! ### `State.setResult` -/

@[simp] theorem setResult_ovr (w : Word) : (s.setResult w).ovr = s.ovr := rfl
@[simp] theorem setResult_err (w : Word) : (s.setResult w).err = s.err := rfl
@[simp] theorem setResult_result (w : Word) : (s.setResult w).result = w := rfl
@[simp] theorem setResult_desc (w : Word) : (s.setResult w).desc = s.desc := rfl
@[simp] theorem setResult_job (w : Word) : (s.setResult w).job = s.job := rfl
@[simp] theorem setResult_raced (w : Word) : (s.setResult w).raced = s.raced := rfl
@[simp] theorem setResult_mem (w : Word) : (s.setResult w).mem = s.mem := rfl
@[simp] theorem setResult_params (w : Word) : (s.setResult w).params = s.params := rfl
@[simp] theorem setResult_host (w : Word) : (s.setResult w).host = s.host := rfl
@[simp] theorem setResult_turns (w : Word) : (s.setResult w).turns = s.turns := rfl
@[simp] theorem setResult_replies (w : Word) : (s.setResult w).replies = s.replies := rfl
@[simp] theorem setResult_unseen (w : Word) : (s.setResult w).unseen = s.unseen := rfl
@[simp] theorem setResult_draws (w : Word) : (s.setResult w).draws = s.draws := rfl
@[simp] theorem setResult_busy (w : Word) : (s.setResult w).busy = s.busy := rfl

/-! ### `State.setDesc` -/

@[simp] theorem setDesc_ovr (d : Desc) : (s.setDesc d).ovr = s.ovr := rfl
@[simp] theorem setDesc_err (d : Desc) : (s.setDesc d).err = s.err := rfl
@[simp] theorem setDesc_result (d : Desc) : (s.setDesc d).result = s.result := rfl
@[simp] theorem setDesc_desc (d : Desc) : (s.setDesc d).desc = d := rfl
@[simp] theorem setDesc_job (d : Desc) : (s.setDesc d).job = s.job := rfl
@[simp] theorem setDesc_raced (d : Desc) : (s.setDesc d).raced = s.raced := rfl
@[simp] theorem setDesc_mem (d : Desc) : (s.setDesc d).mem = s.mem := rfl
@[simp] theorem setDesc_params (d : Desc) : (s.setDesc d).params = s.params := rfl
@[simp] theorem setDesc_host (d : Desc) : (s.setDesc d).host = s.host := rfl
@[simp] theorem setDesc_turns (d : Desc) : (s.setDesc d).turns = s.turns := rfl
@[simp] theorem setDesc_replies (d : Desc) : (s.setDesc d).replies = s.replies := rfl
@[simp] theorem setDesc_unseen (d : Desc) : (s.setDesc d).unseen = s.unseen := rfl
@[simp] theorem setDesc_draws (d : Desc) : (s.setDesc d).draws = s.draws := rfl
@[simp] theorem setDesc_busy (d : Desc) : (s.setDesc d).busy = s.busy := rfl

/-! ### `State.latch` -/

@[simp] theorem latch_ovr (j : Job) : (s.latch j).ovr = s.ovr := rfl
@[simp] theorem latch_err (j : Job) : (s.latch j).err = s.err := rfl
@[simp] theorem latch_result (j : Job) : (s.latch j).result = s.result := rfl
@[simp] theorem latch_desc (j : Job) : (s.latch j).desc = s.desc := rfl
@[simp] theorem latch_job (j : Job) : (s.latch j).job = some j := rfl
@[simp] theorem latch_raced (j : Job) : (s.latch j).raced = false := rfl
@[simp] theorem latch_mem (j : Job) : (s.latch j).mem = s.mem := rfl
@[simp] theorem latch_params (j : Job) : (s.latch j).params = s.params := rfl
@[simp] theorem latch_host (j : Job) : (s.latch j).host = s.host := rfl
@[simp] theorem latch_turns (j : Job) : (s.latch j).turns = s.turns := rfl
@[simp] theorem latch_replies (j : Job) : (s.latch j).replies = s.replies := rfl
@[simp] theorem latch_unseen (j : Job) : (s.latch j).unseen = s.unseen := rfl
@[simp] theorem latch_draws (j : Job) : (s.latch j).draws = s.draws := rfl
@[simp] theorem latch_busy (j : Job) : (s.latch j).busy = true := rfl

/-! ### `State.reply` -/

@[simp] theorem reply_ovr (r : Reply) : (s.reply r).ovr = s.ovr := rfl
@[simp] theorem reply_err (r : Reply) : (s.reply r).err = s.err := rfl
@[simp] theorem reply_result (r : Reply) : (s.reply r).result = s.result := rfl
@[simp] theorem reply_desc (r : Reply) : (s.reply r).desc = s.desc := rfl
@[simp] theorem reply_job (r : Reply) : (s.reply r).job = s.job := rfl
@[simp] theorem reply_raced (r : Reply) : (s.reply r).raced = s.raced := rfl
@[simp] theorem reply_mem (r : Reply) : (s.reply r).mem = s.mem := rfl
@[simp] theorem reply_params (r : Reply) : (s.reply r).params = s.params := rfl
@[simp] theorem reply_host (r : Reply) : (s.reply r).host = s.host := rfl
@[simp] theorem reply_turns (r : Reply) : (s.reply r).turns = s.turns := rfl
@[simp] theorem reply_replies (r : Reply) : (s.reply r).replies = r :: s.replies := rfl
@[simp] theorem reply_unseen (r : Reply) : (s.reply r).unseen = s.unseen := rfl
@[simp] theorem reply_draws (r : Reply) : (s.reply r).draws = s.draws := rfl
@[simp] theorem reply_busy (r : Reply) : (s.reply r).busy = s.busy := rfl

/-! ### `State.setMem` -/

@[simp] theorem setMem_ovr (m : Memory) : (s.setMem m).ovr = s.ovr := rfl
@[simp] theorem setMem_err (m : Memory) : (s.setMem m).err = s.err := rfl
@[simp] theorem setMem_result (m : Memory) : (s.setMem m).result = s.result := rfl
@[simp] theorem setMem_desc (m : Memory) : (s.setMem m).desc = s.desc := rfl
@[simp] theorem setMem_job (m : Memory) : (s.setMem m).job = s.job := rfl
@[simp] theorem setMem_raced (m : Memory) : (s.setMem m).raced = s.raced := rfl
@[simp] theorem setMem_mem (m : Memory) : (s.setMem m).mem = m := rfl
@[simp] theorem setMem_params (m : Memory) : (s.setMem m).params = s.params := rfl
@[simp] theorem setMem_host (m : Memory) : (s.setMem m).host = s.host := rfl
@[simp] theorem setMem_turns (m : Memory) : (s.setMem m).turns = s.turns := rfl
@[simp] theorem setMem_replies (m : Memory) : (s.setMem m).replies = s.replies := rfl
@[simp] theorem setMem_unseen (m : Memory) : (s.setMem m).unseen = s.unseen := rfl
@[simp] theorem setMem_draws (m : Memory) : (s.setMem m).draws = s.draws := rfl
@[simp] theorem setMem_busy (m : Memory) : (s.setMem m).busy = s.busy := rfl

/-! ### `State.markRaced` -/

@[simp] theorem markRaced_ovr : (s.markRaced).ovr = s.ovr := rfl
@[simp] theorem markRaced_err : (s.markRaced).err = s.err := rfl
@[simp] theorem markRaced_result : (s.markRaced).result = s.result := rfl
@[simp] theorem markRaced_desc : (s.markRaced).desc = s.desc := rfl
@[simp] theorem markRaced_job : (s.markRaced).job = s.job := rfl
@[simp] theorem markRaced_raced : (s.markRaced).raced = true := rfl
@[simp] theorem markRaced_mem : (s.markRaced).mem = s.mem := rfl
@[simp] theorem markRaced_params : (s.markRaced).params = s.params := rfl
@[simp] theorem markRaced_host : (s.markRaced).host = s.host := rfl
@[simp] theorem markRaced_turns : (s.markRaced).turns = s.turns := rfl
@[simp] theorem markRaced_replies : (s.markRaced).replies = s.replies := rfl
@[simp] theorem markRaced_unseen : (s.markRaced).unseen = s.unseen := rfl
@[simp] theorem markRaced_draws : (s.markRaced).draws = s.draws := rfl
@[simp] theorem markRaced_busy : (s.markRaced).busy = s.busy := rfl

/-! ### `State.endJob` -/

@[simp] theorem endJob_ovr : (s.endJob).ovr = s.ovr := rfl
@[simp] theorem endJob_err : (s.endJob).err = s.err := rfl
@[simp] theorem endJob_result : (s.endJob).result = s.result := rfl
@[simp] theorem endJob_desc : (s.endJob).desc = s.desc := rfl
@[simp] theorem endJob_job : (s.endJob).job = none := rfl
@[simp] theorem endJob_raced : (s.endJob).raced = false := rfl
@[simp] theorem endJob_mem : (s.endJob).mem = s.mem := rfl
@[simp] theorem endJob_params : (s.endJob).params = s.params := rfl
@[simp] theorem endJob_host : (s.endJob).host = s.host := rfl
@[simp] theorem endJob_turns : (s.endJob).turns = s.turns := rfl
@[simp] theorem endJob_replies : (s.endJob).replies = s.replies := rfl
@[simp] theorem endJob_unseen : (s.endJob).unseen = s.unseen := rfl
@[simp] theorem endJob_draws : (s.endJob).draws = s.draws := rfl
@[simp] theorem endJob_busy : (s.endJob).busy = false := rfl

/-! ### `State.countDraw` -/

@[simp] theorem countDraw_ovr : (s.countDraw).ovr = s.ovr := rfl
@[simp] theorem countDraw_err : (s.countDraw).err = s.err := rfl
@[simp] theorem countDraw_result : (s.countDraw).result = s.result := rfl
@[simp] theorem countDraw_desc : (s.countDraw).desc = s.desc := rfl
@[simp] theorem countDraw_job : (s.countDraw).job = s.job := rfl
@[simp] theorem countDraw_raced : (s.countDraw).raced = s.raced := rfl
@[simp] theorem countDraw_mem : (s.countDraw).mem = s.mem := rfl
@[simp] theorem countDraw_params : (s.countDraw).params = s.params := rfl
@[simp] theorem countDraw_host : (s.countDraw).host = s.host := rfl
@[simp] theorem countDraw_turns : (s.countDraw).turns = s.turns := rfl
@[simp] theorem countDraw_replies : (s.countDraw).replies = s.replies := rfl
@[simp] theorem countDraw_unseen : (s.countDraw).unseen = s.unseen := rfl
@[simp] theorem countDraw_draws : (s.countDraw).draws = s.draws + 1 := rfl
@[simp] theorem countDraw_busy : (s.countDraw).busy = s.busy := rfl

/-! ### `State.setUnseen` -/

@[simp] theorem setUnseen_ovr (rs : List Region) : (s.setUnseen rs).ovr = s.ovr := rfl
@[simp] theorem setUnseen_err (rs : List Region) : (s.setUnseen rs).err = s.err := rfl
@[simp] theorem setUnseen_result (rs : List Region) : (s.setUnseen rs).result = s.result := rfl
@[simp] theorem setUnseen_desc (rs : List Region) : (s.setUnseen rs).desc = s.desc := rfl
@[simp] theorem setUnseen_job (rs : List Region) : (s.setUnseen rs).job = s.job := rfl
@[simp] theorem setUnseen_raced (rs : List Region) : (s.setUnseen rs).raced = s.raced := rfl
@[simp] theorem setUnseen_mem (rs : List Region) : (s.setUnseen rs).mem = s.mem := rfl
@[simp] theorem setUnseen_params (rs : List Region) : (s.setUnseen rs).params = s.params := rfl
@[simp] theorem setUnseen_host (rs : List Region) : (s.setUnseen rs).host = s.host := rfl
@[simp] theorem setUnseen_turns (rs : List Region) : (s.setUnseen rs).turns = s.turns := rfl
@[simp] theorem setUnseen_replies (rs : List Region) : (s.setUnseen rs).replies = s.replies := rfl
@[simp] theorem setUnseen_unseen (rs : List Region) : (s.setUnseen rs).unseen = rs := rfl
@[simp] theorem setUnseen_draws (rs : List Region) : (s.setUnseen rs).draws = s.draws := rfl
@[simp] theorem setUnseen_busy (rs : List Region) : (s.setUnseen rs).busy = s.busy := rfl

/-! ### `State.setHost` -/

@[simp] theorem setHost_ovr (ops : List HostOp) : (s.setHost ops).ovr = s.ovr := rfl
@[simp] theorem setHost_err (ops : List HostOp) : (s.setHost ops).err = s.err := rfl
@[simp] theorem setHost_result (ops : List HostOp) : (s.setHost ops).result = s.result := rfl
@[simp] theorem setHost_desc (ops : List HostOp) : (s.setHost ops).desc = s.desc := rfl
@[simp] theorem setHost_job (ops : List HostOp) : (s.setHost ops).job = s.job := rfl
@[simp] theorem setHost_raced (ops : List HostOp) : (s.setHost ops).raced = s.raced := rfl
@[simp] theorem setHost_mem (ops : List HostOp) : (s.setHost ops).mem = s.mem := rfl
@[simp] theorem setHost_params (ops : List HostOp) : (s.setHost ops).params = s.params := rfl
@[simp] theorem setHost_host (ops : List HostOp) : (s.setHost ops).host = ops := rfl
@[simp] theorem setHost_turns (ops : List HostOp) : (s.setHost ops).turns = s.turns := rfl
@[simp] theorem setHost_replies (ops : List HostOp) : (s.setHost ops).replies = s.replies := rfl
@[simp] theorem setHost_unseen (ops : List HostOp) : (s.setHost ops).unseen = s.unseen := rfl
@[simp] theorem setHost_draws (ops : List HostOp) : (s.setHost ops).draws = s.draws := rfl
@[simp] theorem setHost_busy (ops : List HostOp) : (s.setHost ops).busy = s.busy := rfl

/-! ### `State.setTurns` -/

@[simp] theorem setTurns_ovr (ts : List Turn) : (s.setTurns ts).ovr = s.ovr := rfl
@[simp] theorem setTurns_err (ts : List Turn) : (s.setTurns ts).err = s.err := rfl
@[simp] theorem setTurns_result (ts : List Turn) : (s.setTurns ts).result = s.result := rfl
@[simp] theorem setTurns_desc (ts : List Turn) : (s.setTurns ts).desc = s.desc := rfl
@[simp] theorem setTurns_job (ts : List Turn) : (s.setTurns ts).job = s.job := rfl
@[simp] theorem setTurns_raced (ts : List Turn) : (s.setTurns ts).raced = s.raced := rfl
@[simp] theorem setTurns_mem (ts : List Turn) : (s.setTurns ts).mem = s.mem := rfl
@[simp] theorem setTurns_params (ts : List Turn) : (s.setTurns ts).params = s.params := rfl
@[simp] theorem setTurns_host (ts : List Turn) : (s.setTurns ts).host = s.host := rfl
@[simp] theorem setTurns_turns (ts : List Turn) : (s.setTurns ts).turns = ts := rfl
@[simp] theorem setTurns_replies (ts : List Turn) : (s.setTurns ts).replies = s.replies := rfl
@[simp] theorem setTurns_unseen (ts : List Turn) : (s.setTurns ts).unseen = s.unseen := rfl
@[simp] theorem setTurns_draws (ts : List Turn) : (s.setTurns ts).draws = s.draws := rfl
@[simp] theorem setTurns_busy (ts : List Turn) : (s.setTurns ts).busy = s.busy := rfl

/-! ### `State.clearRegs` -/

@[simp] theorem clearRegs_ovr : (s.clearRegs).ovr = false := rfl
@[simp] theorem clearRegs_err : (s.clearRegs).err = .none := rfl
@[simp] theorem clearRegs_result : (s.clearRegs).result = 0 := rfl
@[simp] theorem clearRegs_desc : (s.clearRegs).desc = Desc.reset := rfl
@[simp] theorem clearRegs_job : (s.clearRegs).job = none := rfl
@[simp] theorem clearRegs_raced : (s.clearRegs).raced = false := rfl
@[simp] theorem clearRegs_mem : (s.clearRegs).mem = s.mem := rfl
@[simp] theorem clearRegs_params : (s.clearRegs).params = s.params := rfl
@[simp] theorem clearRegs_host : (s.clearRegs).host = s.host := rfl
@[simp] theorem clearRegs_turns : (s.clearRegs).turns = s.turns := rfl
@[simp] theorem clearRegs_replies : (s.clearRegs).replies = s.replies := rfl
@[simp] theorem clearRegs_unseen : (s.clearRegs).unseen = s.unseen := rfl
@[simp] theorem clearRegs_draws : (s.clearRegs).draws = s.draws := rfl
@[simp] theorem clearRegs_busy : (s.clearRegs).busy = false := rfl

/-- BUSY is 1 exactly while JOB is valid (10_state.md R28). -/
theorem busy_iff_job : s.busy = true ↔ ∃ j, s.job = some j := by simp [State.busy, Option.isSome_iff_exists]

/-- BUSY is 0 exactly while JOB is not valid (R28). -/
theorem not_busy_iff_job : s.busy = false ↔ s.job = none := by simp [State.busy]

end Sys2Proof.Machine
end

