-- ==== Sys2Proof/Laws/Frame.lean ====
section
/-! SUPPORT. What the frame engine's completion and an abandoned job can do (43_color_frame.md R95 to R97,
70_reset_and_hazards.md R110). -/

namespace Sys2Proof.Machine

/-- Every byte a job writes lies in one of its destination regions (R95). -/
theorem cells_in_dests (j : Job) (q : Params) (m : Memory) (c : Host.Cell) (h : c ∈ j.cells q m) :
    ∃ r ∈ j.dests, c.1 ∈ r.addrs := by
  unfold Job.cells at h
  unfold Job.dests
  split at h
  · simp only [Job.cells444, List.mem_append] at h
    simp only [‹j.op = _›]
    rcases h with (h | h) | h
    · exact ⟨_, by simp, fill_addr _ _ _ h⟩
    · exact ⟨j.cbRegion, by simp, fill_addr _ _ _ h⟩
    · exact ⟨j.crRegion, by simp, fill_addr _ _ _ h⟩
  · simp only [Job.cells420, List.mem_append] at h
    simp only [‹j.op = _›]
    rcases h with (h | h) | h
    · exact ⟨_, by simp, fill_addr _ _ _ h⟩
    · exact ⟨j.cbRegion, by simp, fill_addr _ _ _ h⟩
    · exact ⟨j.crRegion, by simp, fill_addr _ _ _ h⟩
  · simp only [‹j.op = _›]
    exact ⟨j.rgbRegion, by simp, fill_addr _ _ _ h⟩

/-- A destination region is a region of the job (R88). -/
theorem dests_subset_regions (j : Job) (r : Region) (h : r ∈ j.dests) : r ∈ j.regions := by
  unfold Job.dests at h
  unfold Job.regions
  split at h <;> simp at h ⊢ <;> tauto

/-- Where a job is admitted, the platform's memory admits every byte of its regions (20_memory.md R36). -/
theorem admitted_byte {j : Job} {q : Params} (h : j.admitted q = true) {r : Region} (hr : r ∈ j.regions) {a : Nat}
    (ha : a ∈ r.addrs) : admits q a = true := by
  simp only [Job.admitted, List.all_eq_true] at h
  exact h r hr a ha

/-- The bytes a completing job leaves: its own (R96), or free ones (R42, R97). -/
def completionCells (j : Job) (s : State) : List Host.Cell :=
  if j.unspecified s.raced then freeCells s.params s.draws j.dests else j.cells s.params s.mem

/-- Everything the completion step can do (R96): if it answers a next state, the memory admits the job, the job's bytes are
written, BUSY falls, and the model's bookkeeping follows. -/
theorem completeJob_cases {j : Job} {s t : State} (h : completeJob j s = .next t) :
    j.admitted s.params = true ∧ (j.uses444 = true → paramsAdmissible s.params = true) ∧
    t = { s with
          job := none
          raced := false
          unseen := s.unseen ++ j.dests
          mem := s.mem.writeAll (completionCells j s)
          draws := if j.unspecified s.raced then s.draws + 1 else s.draws } := by
  unfold completeJob at h
  split at h
  · cases h
  · rename_i h1
    split at h
    · cases h
    · rename_i h2
      have ha : j.admitted s.params = true := by simpa using h1
      have hp : j.uses444 = true → paramsAdmissible s.params = true := by
        intro hu
        simpa [hu] using h2
      refine ⟨ha, hp, ?_⟩
      simp only at h
      split at h <;> rename_i hu <;> cases h <;>
        simp [completionCells, hu, State.endJob, State.setUnseen, State.setMem, State.countDraw]

/-- The completion step answers a next state wherever the memory admits the job and the 4:4:4 tuples it uses are
admissible (R96: "never fails at completion"). -/
theorem completeJob_next {j : Job} {s : State} (ha : j.admitted s.params = true)
    (hp : j.uses444 = true → paramsAdmissible s.params = true) : ∃ t, completeJob j s = .next t := by
  unfold completeJob
  have h2 : (j.uses444 && !paramsAdmissible s.params) = false := by
    cases hu : j.uses444 with
    | false => rfl
    | true => simp [hp hu]
  simp only [ha, Bool.not_true, Bool.false_eq_true, if_false, h2]
  split <;> exact ⟨_, rfl⟩

/-- Each cell of a completion lies in a destination region, at an admitted address. -/
theorem completionCells_addr {j : Job} {s : State} (ha : j.admitted s.params = true) {c : Host.Cell}
    (hc : c ∈ completionCells j s) : (∃ r ∈ j.dests, c.1 ∈ r.addrs) ∧ admits s.params c.1 = true := by
  unfold completionCells at hc
  split at hc
  · obtain ⟨hr, had, _⟩ := (mem_freeCells _ _ _ _).mp hc
    exact ⟨hr, had⟩
  · obtain ⟨r, hr, hx⟩ := cells_in_dests j _ _ c hc
    exact ⟨⟨r, hr, hx⟩, admitted_byte ha (dests_subset_regions j r hr) hx⟩

/-- In a job that passed its checks every region's stride covers a row (R89, check 3). -/
theorem valid_stride {j : Job} (h : j.valid = true) {r : Region} (hr : r ∈ j.regions) : r.rowBytes ≤ r.stride := by
  simp only [Job.valid, Bool.and_eq_true, Bool.not_eq_true', argumentsBad, Bool.or_eq_false_iff, List.any_eq_false] at h
  have := h.1.1.2 r hr
  simpa using this

/-- The completion of a job whose regions do not overlap and with which no host write has raced: its bytes are written, as
the rules of its command give them (R96). -/
theorem completeJob_clean {s : State} {j : Job} (hc : cleanJob s j) (ha : j.admitted s.params = true)
    (hp : j.uses444 = true → paramsAdmissible s.params = true) :
    ∃ t, completeJob j s = .next t ∧ t.busy = false ∧ t.mem = s.mem.writeAll (j.cells s.params s.mem) := by
  obtain ⟨_, hr, ho⟩ := hc
  obtain ⟨t, ht⟩ := completeJob_next ha hp
  obtain ⟨_, _, h⟩ := completeJob_cases ht
  refine ⟨t, ht, ?_, ?_⟩
  · rw [h]; rfl
  · rw [h]; simp [completionCells, Job.unspecified, hr, ho]

/-- Free cells leave every byte outside the regions alone. -/
theorem read_freeCells_outside (q : Params) (n : Nat) (rs : List Region) (m : Memory) (a : Nat)
    (h : inRegions rs a = false) : (m.writeAll (freeCells q n rs)).read a = m.read a := by
  refine read_writeAll_of_not_mem _ _ _ fun c hc e => ?_
  obtain ⟨hr, _, _⟩ := (mem_freeCells _ _ _ _).mp hc
  rw [e] at hr
  have := (inRegions_iff rs a).mpr hr
  simp [h] at this

/-- Free cells give every admitted byte of the regions its draw. -/
theorem read_freeCells_inside (q : Params) (n : Nat) (rs : List Region) (m : Memory) (a : Nat)
    (h : inRegions rs a = true) (ha : admits q a = true) :
    (m.writeAll (freeCells q n rs)).read a = Config.freeByte n a := by
  refine read_writeAll_of_mem _ _ _ _ ?_ ?_
  · exact ⟨(a, Config.freeByte n a), (mem_freeCells _ _ _ _).mpr ⟨(inRegions_iff rs a).mp h, ha, rfl⟩, rfl⟩
  · intro c hc e
    obtain ⟨_, _, hv⟩ := (mem_freeCells _ _ _ _).mp hc
    rw [hv, e]

end Sys2Proof.Machine
end

