-- ==== Sys2Proof/Laws/Issue.lean ====
section
/-! SUPPORT. What issuing a command can do (40_command.md R61, R62), for the shared operations and for `exec`. -/

namespace Sys2Proof.Machine

/-- While BUSY is 1 the write is dropped (R62). -/
theorem issue_busy (s : State) (k : State → Outcome) (h : s.busy = true) : issue s k = .next s.drop := by
  simp [issue, h]

/-- While BUSY is 0 the command is accepted and its effect follows (R61). -/
theorem issue_idle (s : State) (k : State → Outcome) (h : s.busy = false) : issue s k = k s.accept := by
  simp [issue, h]

/-- An immediate command that is accepted writes its value (R61). -/
theorem immediate_idle (s : State) (w : Word) (h : s.busy = false) :
    immediate s w = .next (s.accept.setResult w) := issue_idle s _ h

/-- If an immediate command answers a next state, it was dropped or its value was written. -/
theorem immediate_cases {s t : State} {w : Word} (h : immediate s w = .next t) :
    (s.busy = true ∧ t = s.drop) ∨ (s.busy = false ∧ t = s.accept.setResult w) := by
  cases hb : s.busy with
  | true => rw [immediate, issue_busy s _ hb] at h; cases h; exact .inl ⟨rfl, rfl⟩
  | false => rw [immediate_idle s w hb] at h; cases h; exact .inr ⟨rfl, rfl⟩

/-- A job that `frameCheck` passes has the command's operation and the descriptor, and is valid (43_color_frame.md R89 to
R91). -/
theorem frameCheck_ok {op : FrameOp} {depth : Byte} {subs : BitVec 2} {d : Desc} {j : Job}
    (h : frameCheck op depth subs d = .ok j) : j.op = op ∧ j.desc = d ∧ j.valid = true := by
  unfold frameCheck at h
  split at h
  · cases h
  · rename_i dep sub hf
    simp only at h
    split at h
    · cases h
    · rename_i hbad
      cases h
      refine ⟨rfl, rfl, ?_⟩
      have hbad' : argumentsBad ⟨op, dep, sub, d⟩ = false := by simpa using hbad
      cases op with
      | rgb2ycc => simp [Job.valid, hbad']
      | ycc2rgb =>
        unfold supportedFormat at hf
        split at hf
        · simp_all
        · cases hf; simp [Job.valid, hbad']
        · cases hf

/-- An error of `frameCheck` is one of R89 or R90: never the code 0. -/
theorem frameCheck_error {op : FrameOp} {depth : Byte} {subs : BitVec 2} {d : Desc} {code : ErrCode}
    (h : frameCheck op depth subs d = .error code) : code = .unsupportedFormat ∨ code = .invalidArgument := by
  unfold frameCheck at h
  split at h
  · cases h; exact .inl rfl
  · simp only at h
    split at h <;> cases h
    exact .inr rfl

/-- What a frame command's `CMD` write can do: dropped, an error raised, or its job latched. -/
theorem issueFrame_cases {op : FrameOp} {depth : Byte} {subs : BitVec 2} {s t : State}
    (h : issueFrame op depth subs s = .next t) :
    (s.busy = true ∧ t = s.drop) ∨
    (s.busy = false ∧ ∃ code, frameCheck op depth subs s.desc = .error code ∧ t = s.accept.raise code) ∨
    (s.busy = false ∧ ∃ j, frameCheck op depth subs s.desc = .ok j ∧ t = s.accept.latch j) := by
  cases hb : s.busy with
  | true => rw [issueFrame, issue_busy s _ hb] at h; cases h; exact .inl ⟨rfl, rfl⟩
  | false =>
    rw [issueFrame, issue_idle s _ hb] at h
    simp only [accept_desc] at h
    split at h
    · rename_i code hc; cases h; exact .inr (.inl ⟨rfl, code, hc, rfl⟩)
    · rename_i j hj; cases h; exact .inr (.inr ⟨rfl, j, hj, rfl⟩)

/-- While BUSY is 1 every command is dropped (R62). -/
theorem exec_busy (i : Instr) (s : State) (h : s.busy = true) : exec i s = .next s.drop := by
  cases i <;>
    simp [exec, execNop, execUlaw2lin, execAlaw2lin, execLin2alaw, execLin2ulaw, execPixRgb2ycc, execPixRgb2yccHp,
      execPixYcc2rgb, execFrmRgb2ycc, execFrmYcc2rgb, immediate, issueFrame, issue_busy, h]

/-- Everything a command can do at its `CMD` write, if it answers a next state: it is dropped; or it is accepted and does
no more (NOP), writes `RESULT` (an immediate command), raises an error or latches a job (a frame command). -/
theorem exec_cases {i : Instr} {s t : State} (h : exec i s = .next t) :
    (s.busy = true ∧ t = s.drop) ∨
    (s.busy = false ∧ isFrame i = false ∧ (t = s.accept ∨ ∃ w, t = s.accept.setResult w)) ∨
    (s.busy = false ∧ isFrame i = true ∧
      ((∃ code, code ≠ .none ∧ t = s.accept.raise code) ∨ ∃ j, j.valid = true ∧ j.desc = s.desc ∧ t = s.accept.latch j)) := by
  have imm : ∀ {w : Word}, isFrame i = false → immediate s w = .next t →
      (s.busy = true ∧ t = s.drop) ∨
      (s.busy = false ∧ isFrame i = false ∧ (t = s.accept ∨ ∃ w, t = s.accept.setResult w)) ∨
      (s.busy = false ∧ isFrame i = true ∧
        ((∃ code, code ≠ .none ∧ t = s.accept.raise code) ∨ ∃ j, j.valid = true ∧ j.desc = s.desc ∧ t = s.accept.latch j)) := by
    intro w hi hw
    rcases immediate_cases hw with ⟨hb, rfl⟩ | ⟨hb, rfl⟩
    · exact .inl ⟨hb, rfl⟩
    · exact .inr (.inl ⟨hb, hi, .inr ⟨w, rfl⟩⟩)
  have frm : ∀ {op : FrameOp} {depth : Byte} {subs : BitVec 2}, isFrame i = true →
      issueFrame op depth subs s = .next t →
      (s.busy = true ∧ t = s.drop) ∨
      (s.busy = false ∧ isFrame i = false ∧ (t = s.accept ∨ ∃ w, t = s.accept.setResult w)) ∨
      (s.busy = false ∧ isFrame i = true ∧
        ((∃ code, code ≠ .none ∧ t = s.accept.raise code) ∨ ∃ j, j.valid = true ∧ j.desc = s.desc ∧ t = s.accept.latch j)) := by
    intro op depth subs hi hw
    rcases issueFrame_cases hw with ⟨hb, rfl⟩ | ⟨hb, code, hc, rfl⟩ | ⟨hb, j, hj, rfl⟩
    · exact .inl ⟨hb, rfl⟩
    · exact .inr (.inr ⟨hb, hi, .inl ⟨code, by rcases frameCheck_error hc with rfl | rfl <;> simp, rfl⟩⟩)
    · obtain ⟨_, hd, hv⟩ := frameCheck_ok hj
      exact .inr (.inr ⟨hb, hi, .inr ⟨j, hv, hd, rfl⟩⟩)
  cases i with
  | nop =>
    cases hb : s.busy with
    | true => rw [exec_busy _ _ hb] at h; cases h; exact .inl ⟨rfl, rfl⟩
    | false =>
      have h' : issue s (fun t => .next t) = .next t := h
      rw [issue_idle s _ hb] at h'
      cases h'
      exact .inr (.inl ⟨rfl, rfl, .inl rfl⟩)
  | pixRgb2yccHp r g b =>
    have h' : execPixRgb2yccHp r g b s = .next t := h
    unfold execPixRgb2yccHp at h'
    split at h'
    · exact imm rfl h'
    · cases h'
  | frmRgb2ycc depth subs => exact frm rfl h
  | frmYcc2rgb depth subs => exact frm rfl h
  | _ => exact imm rfl h

/-- What a `CMD` write of any word can do (R61): as `exec_cases`, or the word is ILLEGAL. -/
theorem issueWord_cases {w : Word} {s t : State} (h : issueWord w s = .next t) :
    (∃ i, decode w = .command i ∧ exec i s = .next t) ∨
    (∃ why, decode w = .illegal why ∧
      ((s.busy = true ∧ t = s.drop) ∨ (s.busy = false ∧ t = s.accept.raise .illegalCmd))) := by
  unfold issueWord at h
  split at h
  · rename_i i hi; exact .inl ⟨i, hi, h⟩
  · rename_i why hw
    refine .inr ⟨why, hw, ?_⟩
    cases hb : s.busy with
    | true => rw [issueIllegal, issue_busy s _ hb] at h; cases h; exact .inl ⟨rfl, rfl⟩
    | false => rw [issueIllegal, issue_idle s _ hb] at h; cases h; exact .inr ⟨rfl, rfl⟩

end Sys2Proof.Machine
end

