-- ==== Sys2Proof/Laws/PerInstr.lean ====
section
/-! SUPPORT. Statements about every command as syntax, one lemma per constructor. -/

namespace Sys2Proof.Laws.Opcode

/-- The opcode of a command (30_encoding.md R51). -/
def opcodeOf : Instr → BitVec 8
  | .nop => 0x00
  | .ulaw2lin _ => 0x01
  | .alaw2lin _ => 0x02
  | .lin2alaw _ => 0x03
  | .lin2ulaw _ => 0x04
  | .pixRgb2ycc _ _ _ => 0x10
  | .pixRgb2yccHp _ _ _ => 0x11
  | .pixYcc2rgb _ _ _ => 0x12
  | .frmRgb2ycc _ _ => 0x20
  | .frmYcc2rgb _ _ => 0x21

/-- The command is well formed, and bits 31:24 of its word are its opcode (R49, R51). -/
def Statement (i : Instr) : Prop := i.wellFormed = true ∧ (encode i).extractLsb' 24 8 = opcodeOf i

/-- The upper field of `{OPC, OPD}` is OPC. -/
theorem opcode_append (opc : BitVec 8) (opd : BitVec 24) : (opc ++ opd : Word).extractLsb' 24 8 = opc :=
  extract_whole_upper opc opd

theorem nop : Statement .nop := ⟨rfl, opcode_append _ _⟩

theorem ulaw2lin (code : Byte) : Statement (.ulaw2lin code) :=
  ⟨rfl, opcode_append _ _⟩

theorem alaw2lin (code : Byte) : Statement (.alaw2lin code) :=
  ⟨rfl, opcode_append _ _⟩

theorem lin2alaw (sample : Half) : Statement (.lin2alaw sample) :=
  ⟨rfl, opcode_append _ _⟩

theorem lin2ulaw (sample : Half) : Statement (.lin2ulaw sample) :=
  ⟨rfl, opcode_append _ _⟩

theorem pixRgb2ycc (r g b : Byte) : Statement (.pixRgb2ycc r g b) :=
  ⟨rfl, opcode_append _ _⟩

theorem pixRgb2yccHp (r g b : Byte) : Statement (.pixRgb2yccHp r g b) :=
  ⟨rfl, opcode_append _ _⟩

theorem pixYcc2rgb (y cb cr : Byte) : Statement (.pixYcc2rgb y cb cr) :=
  ⟨rfl, opcode_append _ _⟩

theorem frmRgb2ycc (depth : Byte) (subs : BitVec 2) : Statement (.frmRgb2ycc depth subs) :=
  ⟨rfl, opcode_append _ _⟩

theorem frmYcc2rgb (depth : Byte) (subs : BitVec 2) : Statement (.frmYcc2rgb depth subs) :=
  ⟨rfl, opcode_append _ _⟩

end Sys2Proof.Laws.Opcode
end

