-- ==== Sys2Proof/Laws/Pixel.lean ====
section
/-! SUPPORT. The per-pixel functions of 42_color_pixel.md: the operators of R8 in Mathlib's terms, admissibility (R79), and
bytes. -/

namespace Sys2Proof.Machine

/-- A shift by 8 is the floor of a division by 256 (00_scope.md R8). -/
theorem asr_8 (a : Int) : asr a 8 = a / 256 := rfl

/-- Truncation is the floor where the numerator is not negative (R8, R81). -/
theorem truncDiv_of_nonneg {a : Int} (b : Int) (h : 0 ≤ a) : truncDiv a b = a / b := Int.tdiv_eq_ediv_of_nonneg h

/-- A value that is a byte survives the cut to a byte. -/
theorem toByte_toNat {v : Int} (h0 : 0 ≤ v) (h1 : v ≤ 255) : ((toByte v).toNat : Int) = v := by
  simp only [toByte, BitVec.toNat_ofInt]
  have : v % (2 ^ 8 : Nat) = v := by
    apply Int.emod_eq_of_lt h0
    norm_num; omega
  rw [this]
  omega

/-- `clamp8` gives a byte (R8). -/
theorem clamp8_range (v : Int) : 0 ≤ clamp8 v ∧ clamp8 v ≤ 255 := by
  unfold clamp8; omega

/-- One weighted channel lies between the weights' extremes. -/
theorem weight_bounds (w : Int) (x : Byte) : 255 * min w 0 ≤ w * x.toNat ∧ w * x.toNat ≤ 255 * max w 0 := by
  have hx : (x.toNat : Int) ≤ 255 := by have := x.isLt; omega
  have hx0 : (0 : Int) ≤ x.toNat := by omega
  rcases le_total w 0 with h | h
  · rw [min_eq_left h, max_eq_right h]
    constructor <;> nlinarith
  · rw [min_eq_right h, max_eq_left h]
    constructor <;> nlinarith

/-- An admissible tuple keeps every pixel's numerator at 0 or above (R79). -/
theorem chroma444_numerator {t : Chroma444} (h : chromaAdmissible t = true) (p : Rgb) :
    0 ≤ weigh p t.r t.g t.b + t.k := by
  simp only [chromaAdmissible, Bool.and_eq_true, decide_eq_true_eq] at h
  have hr := weight_bounds t.r p.r
  have hg := weight_bounds t.g p.g
  have hb := weight_bounds t.b p.b
  unfold weigh
  omega

/-- An admissible tuple gives every pixel a byte (R79). -/
theorem chroma444_range {t : Chroma444} (h : chromaAdmissible t = true) (p : Rgb) :
    0 ≤ chroma444 t p ∧ chroma444 t p ≤ 255 := by
  have hn := chroma444_numerator h p
  have h' := h
  simp only [chromaAdmissible, Bool.and_eq_true, decide_eq_true_eq] at h'
  obtain ⟨⟨hd, _⟩, hmax⟩ := h'
  have hr := weight_bounds t.r p.r
  have hg := weight_bounds t.g p.g
  have hb := weight_bounds t.b p.b
  have hle : weigh p t.r t.g t.b + t.k ≤ t.k + 255 * (max t.r 0 + max t.g 0 + max t.b 0) := by
    unfold weigh; omega
  unfold chroma444
  rw [truncDiv_of_nonneg _ hn]
  rw [truncDiv_of_nonneg _ (le_trans hn hle)] at hmax
  exact ⟨Int.ediv_nonneg hn hd.le, le_trans (Int.ediv_le_ediv hd hle) hmax⟩

/-- The default tuples are admissible (R79). -/
theorem default_admissible : paramsAdmissible Params.default = true := by decide

/-- A word packed from three bytes (30_encoding.md R50). -/
theorem pack3_toNat (a b c : Byte) : (pack3 a b c).toNat = a.toNat * 65536 + b.toNat * 256 + c.toNat := by
  have ha := a.isLt
  have hb := b.isLt
  have hc := c.isLt
  simp only [pack3, BitVec.toNat_append, BitVec.toNat_ofNat]
  rw [← Nat.shiftLeft_add_eq_or_of_lt hc, ← Nat.shiftLeft_add_eq_or_of_lt hb]
  simp [Nat.shiftLeft_eq]
  omega

end Sys2Proof.Machine
end

