-- ==== Sys2Proof/Laws/Step.lean ====
section
/-! SUPPORT. What the agents' moves can do: the host's accesses, reset, and a step. -/

namespace Sys2Proof.Machine

/-- A read of a register changes no field but the host's replies and, where it is the read by which the host sees
BUSY = 0, the list of regions not yet seen (20_memory.md R33, R41). -/
theorem readReg_eq (offset : Nat) (r : Reg) (s : State) :
    readReg offset r s = { s with
      replies := .reg offset (regRead s r) :: s.replies
      unseen := if r = .status && !s.busy then [] else s.unseen } := by
  unfold readReg
  simp only
  split <;> simp_all [State.reply, State.setUnseen]

/-- An address is a 32-bit access's `offset` from the base the platform has chosen (20_memory.md R31, R37). -/
theorem windowOffset_eq_some {q : Params} {addr offset : Nat} :
    windowOffset q addr = some offset ↔ addr = q.windowBase + offset := by
  unfold windowOffset
  split <;> simp <;> omega

@[simp] theorem windowOffset_base (q : Params) (offset : Nat) :
    windowOffset q (q.windowBase + offset) = some offset := windowOffset_eq_some.mpr rfl

/-- The register a 32-bit access at an offset of the window names, wherever the window stands (R31, R37). -/
@[simp] theorem accessedReg_base (q : Params) (offset : Nat) :
    accessedReg q .word (q.windowBase + offset) = regAt offset := by simp [accessedReg]

/-- A legal access is 32 bits wide and names the register of its offset (R31, R32). -/
theorem accessedReg_eq_some {q : Params} {size : AccessSize} {addr : Nat} {r : Reg} :
    accessedReg q size addr = some r ↔
      size = .word ∧ ∃ offset, addr = q.windowBase + offset ∧ regAt offset = some r := by
  cases size <;> simp [accessedReg, Option.bind_eq_some_iff, windowOffset_eq_some]

/-- Only offset 0 is `CMD` (10_state.md R17). -/
theorem regAt_eq_cmd {offset : Nat} (h : regAt offset = some .cmd) : offset = 0 := by
  unfold regAt at h
  split at h <;> simp_all

/-- Everything a host access can do, if it answers a next state: a `CMD` write issues its word; any other register write
changes the descriptor at most; a read changes no block state; a memory access reads or writes one byte. -/
theorem hostAct_cases {op : HostOp} {s t : State} (h : hostAct op s = .next t) :
    (∃ w, op = wrOp s.params 0x00 w ∧ issueWord w s = .next t) ∨
    (∃ d, t = s.setDesc d) ∨
    (∃ rs us ops, t = { s with replies := rs, unseen := us, host := ops }) ∨
    (∃ rs n, t = { s with replies := rs, draws := n }) ∨
    (∃ a b r, op = .memWrite a b ∧ admits s.params a.toNat = true ∧
      t = { s with mem := s.mem.write a.toNat b, raced := r } ∧ (r = s.raced ∨ (r = true ∧ s.busy = true))) := by
  cases op with
  | write size addr w =>
    simp only [hostAct] at h
    split at h
    · rename_i r hr
      obtain ⟨rfl, offset, rfl, hoff⟩ := accessedReg_eq_some.mp hr
      cases r with
      | cmd => exact .inl ⟨w, by rw [regAt_eq_cmd hoff, wrOp], h⟩
      | _ => cases h; exact .inr (.inl ⟨_, rfl⟩)
    · cases h
  | read size addr =>
    simp only [hostAct] at h
    split at h
    · cases h; exact .inr (.inr (.inl ⟨_, _, s.host, readReg_eq _ _ _⟩))
    · cases h
  | poll addr mask value =>
    simp only [hostAct] at h
    split at h
    · rw [readReg_eq] at h
      split at h <;> cases h
      · exact .inr (.inr (.inl ⟨_, _, s.host, rfl⟩))
      · exact .inr (.inr (.inl ⟨_, _, _, rfl⟩))
    · cases h
  | memRead a =>
    simp only [hostAct, hostMemRead] at h
    split at h
    · cases h
    · split at h <;> cases h
      · exact .inr (.inr (.inr (.inl ⟨_, _, rfl⟩)))
      · exact .inr (.inr (.inr (.inl ⟨_, s.draws, rfl⟩)))
  | memWrite a b =>
    simp only [hostAct, hostMemWrite] at h
    split at h
    · cases h
    · rename_i ha
      have ha : admits s.params a.toNat = true := by simpa using ha
      split at h <;> rename_i hr <;> cases h
      · refine .inr (.inr (.inr (.inr ⟨a, b, true, rfl, ha, rfl, .inr ⟨rfl, ?_⟩⟩)))
        cases hj : s.job with
        | none => simp [writeRaces, hj] at hr
        | some j => simp [State.busy, hj]
      · exact .inr (.inr (.inr (.inr ⟨a, b, s.raced, rfl, ha, rfl, .inl rfl⟩)))

/-- Reset: the registers at their reset values, and the destination bytes of an abandoned job free
(70_reset_and_hazards.md R109, R110). -/
theorem resetTurn_eq (s : State) :
    resetTurn s = { s with
      ovr := false
      err := .none
      result := 0
      desc := Desc.reset
      job := none
      raced := false
      mem := match s.job with
        | some j => s.mem.writeAll (freeCells s.params s.draws j.dests)
        | none => s.mem
      draws := if s.busy then s.draws + 1 else s.draws } := by
  unfold resetTurn
  cases hj : s.job <;> simp [State.clearRegs, State.setMem, State.countDraw, State.busy, hj]

end Sys2Proof.Machine
end

