-- ==== Sys2Proof/Tests/Slice0.lean ====
section
/-! SUPPORT. Tests. Expected values are those of the spec's own examples and of 95_test_vectors.md. The theorems named
`witness_…` show a state and operands that meet the hypotheses of the obligation they name. -/

namespace Sys2Proof.Machine.Tests

/-! ### Helpers -/

/-- The default parameters, with the register window at 0x40000000. -/
def paramsHigh : Params := { Params.default with windowBase := 0x40000000 }

/-- The next state, or reset where there is none. -/
def out : Outcome → State
  | .next t => t
  | .fault _ => State.reset
  | .refused _ => State.reset

/-- The outcome is a refusal with this reason. -/
def refusedBy (r : Refusal) : Outcome → Bool
  | .refused q => q = r
  | .next _ => false
  | .fault _ => false

/-- RESULT after a `CMD` write from reset. -/
def resultOf (w : Word) : Word := (out (issueWord w State.reset)).result

/-- STATUS after a `CMD` write with a descriptor. -/
def statusWith (d : Desc) (w : Word) : Word := statusWord (out (issueWord w { State.reset with desc := d }))

/-- The descriptor of program P3 (95_test_vectors.md sections 7 and 8). -/
def descP3 : Desc := ⟨0x1000, 6, 2, 2, 0x2000, 2, 0x2010, 1, 0x2020, 1⟩

/-- The source buffer of program P3. -/
def memP3 : Memory := Memory.empty.writeAll
  [(0x1000, 0x00), (0x1001, 0x80), (0x1002, 0xFF), (0x1003, 0x80), (0x1004, 0x40), (0x1005, 0x00),
   (0x1006, 0x32), (0x1007, 0x64), (0x1008, 0xC8), (0x1009, 0x1E), (0x100A, 0x14), (0x100B, 0x0A)]

/-- P3's forward job. -/
def jobP3 : Job := ⟨.rgb2ycc, .d24, .s420, descP3⟩

/-- P3's inverse job, its planes those of its forward job. -/
def jobP3Inverse : Job := ⟨.ycc2rgb, .d24, .s420, { descP3 with rgbAddr := 0x3000 }⟩

/-- P4's job, a 4:4:4 frame of depth 32 (95_test_vectors.md section 8). -/
def jobP4 : Job := ⟨.rgb2ycc, .d32, .s444, ⟨0x4000, 4, 1, 2, 0x5000, 1, 0x5010, 1, 0x5020, 1⟩⟩

/-- The source buffer of program P4. -/
def memP4 : Memory := Memory.empty.writeAll
  [(0x4000, 0x00), (0x4001, 0x00), (0x4002, 0xFF), (0x4003, 0x77),
   (0x4004, 0xFF), (0x4005, 0x00), (0x4006, 0x00), (0x4007, 0x77)]

/-- A state with a job in flight. -/
def flying (j : Job) (m : Memory) : State := { State.reset with desc := j.desc, job := some j, mem := m }

/-! ### Decoding: words from the encodings of 30_encoding.md and the vectors of 95_test_vectors.md section 4 -/

theorem test_decode_nop : decode 0x00000000#32 = .command .nop := by decide
theorem test_decode_ulaw2lin : decode 0x010000FF#32 = .command (.ulaw2lin 0xFF) := by decide
theorem test_decode_alaw2lin : decode 0x020000D5#32 = .command (.alaw2lin 0xD5) := by decide
theorem test_decode_lin2alaw : decode 0x0300FF9C#32 = .command (.lin2alaw 0xFF9C) := by decide
theorem test_decode_lin2ulaw : decode 0x04008000#32 = .command (.lin2ulaw 0x8000) := by decide
theorem test_decode_pixRgb2ycc : decode 0x10C86432#32 = .command (.pixRgb2ycc 200 100 50) := by decide
theorem test_decode_pixRgb2yccHp : decode 0x110A141E#32 = .command (.pixRgb2yccHp 10 20 30) := by decide
theorem test_decode_pixYcc2rgb : decode 0x12525AF0#32 = .command (.pixYcc2rgb 82 90 240) := by decide
theorem test_decode_frmRgb2ycc : decode 0x20000318#32 = .command (.frmRgb2ycc 24 3) := by decide
theorem test_decode_frmYcc2rgb : decode 0x21000118#32 = .command (.frmYcc2rgb 24 1) := by decide
theorem test_decode_reserved_c8 : decode 0x02FFFFD5#32 = .illegal .reservedBitSet := by decide
theorem test_decode_reserved_s16 : decode 0x03010000#32 = .illegal .reservedBitSet := by decide
theorem test_decode_reserved_f : decode 0x20000418#32 = .illegal .reservedBitSet := by decide
theorem test_decode_unassigned : decode 0x05000000#32 = .illegal .unassignedOpcode := by decide
theorem test_encode_frmRgb2ycc : encode (.frmRgb2ycc 32 1) = 0x20000120#32 := by decide
theorem test_encode_pixYcc2rgb : encode (.pixYcc2rgb 16 128 128) = 0x12108080#32 := by decide
theorem test_decodeTableWord : decodeTableWord 32 0x0400FFFF = some (.lin2ulaw 0xFFFF) := by decide

/-! ### Well-formedness and the assembler (R57): an ill-formed term for each check -/

theorem test_byte_too_big : AsmLine.wellFormed (.ulaw2lin ⟨256, false⟩) = false := by decide
theorem test_byte_negative : AsmLine.wellFormed (.pixYcc2rgb ⟨0, false⟩ ⟨-1, false⟩ ⟨0, false⟩) = false := by decide
theorem test_sample_too_small : AsmLine.wellFormed (.lin2alaw ⟨-32769, false⟩) = false := by decide
theorem test_sample_decimal_raw : AsmLine.wellFormed (.lin2ulaw ⟨40000, false⟩) = false := by decide
theorem test_sample_hex_raw : AsmLine.wellFormed (.lin2ulaw ⟨40000, true⟩) = true := by decide
theorem test_subs_too_big : AsmLine.wellFormed (.frmRgb2ycc ⟨24, false⟩ (.raw ⟨4, false⟩)) = false := by decide
theorem test_assemble_lin2alaw : assembleText "lin2alaw -100".toList = some 0x0300FF9C#32 := by decide
theorem test_assemble_pix : assembleText "pix.rgb2ycc.hp 255, 0, 0x10".toList = some 0x11FF0010#32 := by decide
theorem test_assemble_frame : assembleText "frm.rgb2ycc 32, 444".toList = some 0x20000120#32 := by decide
theorem test_assemble_rejects : assembleText "ulaw2lin 256".toList = none := by decide

/-! ### Commands: the examples of the rules and the vectors of 95_test_vectors.md sections 3 to 6 -/

theorem test_nop_clears : statusWord (out (issueWord 0 { State.reset with err := .illegalCmd })) = 0 := by decide
theorem test_ulaw2lin_af : resultOf 0x010000AF#32 = 0x00000FFC#32 := by decide
theorem test_ulaw2lin_00 : resultOf 0x01000000#32 = 0xFFFF8284#32 := by decide
theorem test_alaw2lin_fc : resultOf 0x020000FC#32 = 0x00000330#32 := by decide
theorem test_alaw2lin_2a : resultOf 0x0200002A#32 = 0xFFFF8200#32 := by decide
theorem test_lin2alaw_minus_100 : resultOf 0x0300FF9C#32 = 0x0000007C#32 := by decide
theorem test_lin2alaw_min : resultOf 0x03008000#32 = 0x0000002A#32 := by decide
theorem test_lin2ulaw_31 : resultOf 0x0400001F#32 = 0x000000EF#32 := by decide
theorem test_lin2ulaw_saturates : resultOf 0x0400E021#32 = 0x00000000#32 := by decide
theorem test_pixRgb2ycc_red : resultOf 0x10FF0000#32 = 0x00525AF0#32 := by decide
theorem test_pixRgb2yccHp_red : resultOf 0x11FF0000#32 = 0x00515AF0#32 := by decide
theorem test_pixRgb2yccHp_differs : resultOf 0x11004080#32 = 0x003DA65F#32 := by decide
theorem test_pixYcc2rgb_clamps : resultOf 0x12525AF0#32 = 0x00FF0100#32 := by decide
theorem test_pixYcc2rgb_order : resultOf 0x12EBF010#32 = 0x004CFFFF#32 := by decide
theorem test_illegal_word : statusWith descP3 0x20000418#32 = 0x10#32 := by decide
theorem test_frm_last_byte : statusWith { descP3 with rgbAddr := 0xFFFFFFF4 } 0x20000018#32 = 0x01#32 := by decide
theorem test_frm_format_first : statusWith { descP3 with width := 0 } 0x20000010#32 = 0x30#32 := by decide
theorem test_inverse_no_444 : statusWith descP3 0x21000118#32 = 0x30#32 := by decide
theorem test_dropped : statusWord (out (issueWord 0x04000000#32 (flying jobP3 memP3))) = 0x03#32 := by decide

/-! ### Registers and reset (95_test_vectors.md section 5) -/

theorem test_width_is_cut :
    regRead (out (hostAct (.write .word 0x18 0x12345678) State.reset)) .width = 0x5678#32 := by decide
theorem test_result_not_writable :
    (out (hostAct (.write .word 0x08 0x12345678) State.reset)).result = 0 := by decide
theorem test_narrow_access_refused : refusedBy .registerAccess (hostAct (.read .half 0x04) State.reset) = true := by decide
/-- With the window at another base the registers stand at that base, and no register stands below it (R31, R37). -/
theorem test_window_base :
    (out (hostAct (.write .word 0x40000018 7) { State.reset with params := paramsHigh })).desc.width = 7 ∧
    refusedBy .registerAccess (hostAct (.read .word 0x18) { State.reset with params := paramsHigh }) = true ∧
    refusedBy .registerAccess (hostAct (.read .word 0x40000040) { State.reset with params := paramsHigh }) = true := by
  decide
theorem test_reset_keeps_params : (out (move .reset { State.reset with params := { Params.default with channelOrder := .rgb } })).params.channelOrder = .rgb := by
  decide

/-! ### Completion: programs P3 and P4 -/

/-- The planes after P3's forward job. -/
theorem test_forward420 : [0x2000, 0x2001, 0x2002, 0x2003, 0x2010, 0x2020, 0x2004].map
    (out (engineTurn (flying jobP3 memP3))).mem.read = [0x7B, 0x20, 0x92, 0x3D, 0x6F, 0x92, 0x00] := by decide

/-- The first row of the buffer after P3's inverse job. -/
theorem test_inverse : [0x3000, 0x3001, 0x3002, 0x3003, 0x3004, 0x3005].map
    (out (engineTurn (flying jobP3Inverse (Memory.empty.writeAll [(0x2000, 0x7B), (0x2001, 0x20), (0x2002, 0x92),
      (0x2003, 0x3D), (0x2010, 0x6F), (0x2020, 0x92)])))).mem.read = [0x5A, 0x75, 0x99, 0x00, 0x0B, 0x2F] := by decide

/-- The planes after P4's job. -/
theorem test_forward444 : [0x5000, 0x5001, 0x5010, 0x5011, 0x5020, 0x5021].map
    (out (engineTurn (flying jobP4 memP4))).mem.read = [0x29, 0x51, 0xF0, 0x5A, 0x6E, 0xF0] := by decide

/-- With `CHANNEL_ORDER` = RGB the same bytes are R = 50, G = 100, B = 200: Y = 99 (R78, R86). -/
theorem test_channel_order_rgb : (out (engineTurn { flying jobP3 memP3 with
    params := { Params.default with channelOrder := .rgb } })).mem.read 0x2000 = 99 := by decide

/-- A host read of a destination byte while BUSY is a free value (R42). -/
theorem test_racing_read : (out (hostAct (.memRead 0x2003) (flying jobP3 memP3))).replies =
    [.mem 0x2003 (Config.freeByte 0 0x2003)] := rfl

/-! ### A step -/

theorem test_step_runs_the_fetch_word :
    (out (step (State.reset.withFetchWord 32 0x040003E8))).result = 0x000000AF#32 := by decide

/-- P5, run A: the host's turn comes before the engine's. -/
theorem test_step_scheduler_chooses_host :
    (out (step { flying jobP3 memP3 with turns := [.host], host := [cmdOp Params.default (.ulaw2lin 0x80)] })).ovr = true := by decide

/-- Without a choice of the scheduler the engine completes. -/
theorem test_step_default_is_engine :
    (out (step { flying jobP3 memP3 with host := [cmdOp Params.default (.ulaw2lin 0x80)] })).busy = false := by decide

/-! ### Witnesses: states and operands that meet the obligations' hypotheses -/

/-- A region overlaps another: the Cb plane on the Y plane. -/
def jobOverlap : Job := ⟨.rgb2ycc, .d24, .s420, { descP3 with cbAddr := 0x2003 }⟩

/-- A platform without the last byte of P3's Y plane. -/
def paramsAbsent : Params := { Params.default with absent := [⟨0x2003, 1⟩] }

/-- The default parameters with a `CB444` divisor of 0. -/
def paramsBad : Params := { Params.default with cb444 := { Params.defaultCb444 with d := 0 } }

theorem clean_P3 : cleanJob (flying jobP3 memP3) jobP3 := ⟨rfl, rfl, by decide⟩
theorem clean_P3Inverse : cleanJob (flying jobP3Inverse memP3) jobP3Inverse := ⟨rfl, rfl, by decide⟩
theorem clean_P4 : cleanJob (flying jobP4 memP4) jobP4 := ⟨rfl, rfl, by decide⟩
theorem can_P3 : Ref.canComplete (flying jobP3 memP3) jobP3 := ⟨by decide, fun _ _ => by decide⟩
theorem can_P3Inverse : Ref.canComplete (flying jobP3Inverse memP3) jobP3Inverse := ⟨by decide, fun _ _ => by decide⟩
theorem can_P4 : Ref.canComplete (flying jobP4 memP4) jobP4 := ⟨by decide, fun _ _ => by decide⟩

theorem witness_ResetAbandonsTheJob : (flying jobP3 memP3).job = some jobP3 ∧ State.reset.job = none ∧
    inRegions jobP3.dests 0x2003 = true ∧ inRegions jobP3.dests 0x2004 = false ∧
    admits (flying jobP3 memP3).params 0x2003 = true := by decide

theorem witness_DecodeOfEncode : Instr.wellFormed (.frmYcc2rgb 255 3) = true := by decide

theorem witness_EncodeOfDecode : decode 0x210003FF#32 = .command (.frmYcc2rgb 255 3) := by decide

/-- The ranges of R53 hold their ends and none of the assigned opcodes next to them. -/
theorem witness_UnassignedOpcodesAreIllegal : State.reset.busy = false ∧
    [0x05#8, 0x0F#8, 0x13#8, 0x1F#8, 0x22#8, 0xFF#8].all (fun o =>
      (0x05#8 ≤ o && o ≤ 0x0F#8) || (0x13#8 ≤ o && o ≤ 0x1F#8) || 0x22#8 ≤ o) = true ∧
    [0x04#8, 0x10#8, 0x12#8, 0x20#8, 0x21#8].any (fun o =>
      (0x05#8 ≤ o && o ≤ 0x0F#8) || (0x13#8 ≤ o && o ≤ 0x1F#8) || 0x22#8 ≤ o) = false := by decide

/-- The least operand of each "must be 0" field is illegal, and the word one below it decodes. -/
theorem witness_ReservedBitsAreIllegal : State.reset.busy = false ∧
    (decode (Ref.word 0x00 1)).instr? = none ∧ (decode (Ref.word 0x00 0)).instr? ≠ none ∧
    (decode (Ref.word 0x01 256)).instr? = none ∧ (decode (Ref.word 0x01 255)).instr? ≠ none ∧
    (decode (Ref.word 0x04 65536)).instr? = none ∧ (decode (Ref.word 0x04 65535)).instr? ≠ none ∧
    (decode (Ref.word 0x21 1024)).instr? = none ∧ (decode (Ref.word 0x21 1023)).instr? ≠ none := by decide

theorem witness_AssemblerWords : AsmLine.wellFormed (.lin2ulaw ⟨0xFFFF, true⟩) = true ∧
    AsmLine.wellFormed (.lin2ulaw ⟨0x10000, true⟩) = false := by decide

theorem witness_RegisterReads : (0x3C, 0) ∈ Ref.readTable State.reset ∧ (0x00, 0) ∈ Ref.readTable State.reset := by
  decide

theorem witness_RegisterWrites : regAt 0x34 = some .crStride ∧ Reg.crStride ≠ .cmd ∧ regAt 0x04 = some .status ∧
    regAt 0x1C = some .height := by decide

/-- 0x3C is the last legal offset; 0x40 and 0x3D are not legal. -/
theorem witness_OtherAccessesRefused :
    refusedBy .registerAccess (hostAct (.read .word 0x40) State.reset) = true ∧
    refusedBy .registerAccess (hostAct (.write .word 0x3D 0) State.reset) = true ∧
    refusedBy .registerAccess (hostAct (.write .byte 0x00 0) State.reset) = true ∧
    refusedBy .registerAccess (hostAct (.poll 0x02 1 0) State.reset) = true ∧
    refusedBy .registerAccess (hostAct (.read .word 0x3C) State.reset) = false := by decide

theorem witness_RegisterReadsHaveNoSideEffect : hostAct (rdOp (flying jobP3 memP3).params 0x04) (flying jobP3 memP3) =
    .next (readReg 0x04 .status (flying jobP3 memP3)) := rfl

theorem witness_PollIsALoopOfReads : (0x04, 1) ∈ Ref.readTable (flying jobP3 memP3) ∧
    (1 : Word) &&& 1 = 1 ∧ (1 : Word) &&& 1 ≠ 0 := by decide

theorem witness_OnlyCmdWritesHaveSideEffects :
    (∀ w, HostOp.memWrite 0x2003 7 ≠ wrOp (flying jobP3 memP3).params 0x00 w) ∧
    ∃ t, hostAct (.memWrite 0x2003 7) (flying jobP3 memP3) = .next t := ⟨by simp [wrOp], _, rfl⟩

theorem witness_BusyDropsEveryWord : (flying jobP3 memP3).busy = true ∧ State.reset.busy = false ∧
    issueWord 0x00000000#32 State.reset = .next State.reset := ⟨by decide, by decide, rfl⟩

theorem witness_EveryWordHasAnOutcome : paramsAdmissible State.reset.params = true ∧ State.reset.busy = false ∧
    decode 0x11000000#32 = .command (.pixRgb2yccHp 0 0 0) ∧ isFrame (.pixRgb2yccHp 0 0 0) = false := by decide

theorem witness_ErrorPriority : paramsAdmissible (flying jobP3 memP3).params = true ∧
    (flying jobP3 memP3).busy = true ∧ State.reset.busy = false := by decide

theorem witness_ErrorsChangeOnlyErr : State.reset.busy = false ∧
    issueWord 0x05000000#32 State.reset = .next (State.reset.raise .illegalCmd) ∧
    (State.reset.raise .illegalCmd).err ≠ .none := ⟨rfl, rfl, by decide⟩

/-- The hypothesis of the results of the compander and PIX commands; that of PIX_RGB2YCC_HP holds with it. -/
theorem witness_ImmediateResults : State.reset.busy = false ∧ paramsAdmissible State.reset.params = true := by decide

theorem witness_NopResult : State.reset.busy = false ∧ (flying jobP3 memP3).busy = true := by decide

theorem witness_UlawRoundTripBound : (8158 : Int).natAbs ≤ 8158 ∧ 8159 ≤ (-8159 : Int).natAbs ∧
    ulawToLinear (linearToULaw (-8159)) = -32124 := by decide

theorem witness_AlawRoundTripBound : (-4095 : Int).natAbs ≤ 4095 ∧ 4096 ≤ (4096 : Int).natAbs ∧
    alawToLinear (linearToALaw 4096) = 32256 := by decide

theorem witness_ReencodingGivesTheCodeBack : (0x7E#8 : Byte) ≠ 0x7F#8 ∧ (-32768 : Int) ≤ -32768 ∧
    (-32768 : Int) ≤ 32767 := by decide

theorem witness_ChromaAdmissibility : State.reset.busy = false ∧ chromaAdmissible paramsBad.cb444 = false ∧
    refusedBy .inadmissibleChroma (exec (.pixRgb2yccHp 1 2 3) { State.reset with params := paramsBad }) = true := by
  decide

theorem witness_FrmRgb2yccLatchesItsJob : State.reset.busy = false ∧
    Ref.format .rgb2ycc 32 1 = some (.d32, .s444) ∧
    Ref.badArgument .rgb2ycc .d32 .s444 jobP4.desc = false ∧
    Ref.format .rgb2ycc 24 0 = some (.d24, .s420) ∧ Ref.badArgument .rgb2ycc .d24 .s420 descP3 = false := by decide

theorem witness_FrmYcc2rgbLatchesItsJob : State.reset.busy = false ∧
    Ref.format .ycc2rgb 24 0 = some (.d24, .s420) ∧ Ref.badArgument .ycc2rgb .d24 .s420 descP3 = false := by decide

theorem witness_UnsupportedFormats : State.reset.busy = false ∧
    ¬((16 = 24 ∨ 16 = 32) ∧ ((0 : BitVec 2).toNat = 0 ∨ (0 : BitVec 2).toNat = 1)) ∧
    ¬((24 : Byte).toNat = 24 ∧ (1 : BitVec 2).toNat = 0) := by decide

theorem witness_InvalidArguments : State.reset.busy = false ∧
    Ref.format .rgb2ycc 24 0 = some (.d24, .s420) ∧ Ref.format .ycc2rgb 24 0 = some (.d24, .s420) ∧
    Ref.badArgument .rgb2ycc .d24 .s420 { descP3 with width := 3 } = true ∧
    Ref.badArgument .ycc2rgb .d24 .s420 { descP3 with rgbStride := 5 } = true ∧
    Ref.badArgument .rgb2ycc .d24 .s420 { descP3 with rgbAddr := 0xFFFFFFF5 } = true ∧
    Ref.badArgument .rgb2ycc .d24 .s420 { descP3 with rgbAddr := 0xFFFFFFF4 } = false := by decide

theorem witness_CheckedJobsStayInTheAddressSpace : jobP3.valid = true ∧ 0x2003 ∈ jobP3.yRegion.addrs ∧
    Params.default.absent = [] := by decide

theorem witness_ImmediateCommandFrame : isFrame (.ulaw2lin 0xFF) = false ∧
    exec (.ulaw2lin 0xFF) State.reset = .next State.reset := ⟨rfl, rfl⟩

theorem witness_FrameCommandFrame : isFrame (.frmRgb2ycc 24 0) = true ∧
    ∃ t, exec (.frmRgb2ycc 24 0) { State.reset with desc := descP3 } = .next t ∧ t.job = some jobP3 :=
  ⟨rfl, _, rfl, by decide⟩

theorem witness_Forward444Planes : cleanJob (flying jobP4 memP4) jobP4 ∧ jobP4.op = .rgb2ycc ∧ jobP4.subs = .s444 ∧
    jobP4.valid = true ∧ Ref.canComplete (flying jobP4 memP4) jobP4 ∧ 1 < jobP4.desc.height.toNat ∧
    0 < jobP4.desc.width.toNat := ⟨clean_P4, rfl, rfl, by decide, can_P4, by decide, by decide⟩

theorem witness_Forward420Planes : cleanJob (flying jobP3 memP3) jobP3 ∧ jobP3.op = .rgb2ycc ∧ jobP3.subs = .s420 ∧
    jobP3.valid = true ∧ Ref.canComplete (flying jobP3 memP3) jobP3 ∧ 1 < jobP3.desc.height.toNat ∧
    0 < jobP3.desc.width.toNat / 2 := ⟨clean_P3, rfl, rfl, by decide, can_P3, by decide, by decide⟩

theorem witness_InverseFrame : cleanJob (flying jobP3Inverse memP3) jobP3Inverse ∧ jobP3Inverse.op = .ycc2rgb ∧
    jobP3Inverse.valid = true ∧ Ref.canComplete (flying jobP3Inverse memP3) jobP3Inverse ∧
    1 < jobP3Inverse.desc.height.toNat ∧ 1 < jobP3Inverse.desc.width.toNat :=
  ⟨clean_P3Inverse, rfl, by decide, can_P3Inverse, by decide, by decide⟩

theorem witness_CompletionFrame : ∃ t, (flying jobP3 memP3).job = some jobP3 ∧
    engineTurn (flying jobP3 memP3) = .next t ∧ inRegions jobP3.dests 0x2004 = false :=
  ⟨_, rfl, rfl, by decide⟩

theorem witness_OverlapGivesFreeBytes : (flying jobOverlap memP3).job = some jobOverlap ∧
    jobOverlap.overlaps = true ∧ Ref.canComplete (flying jobOverlap memP3) jobOverlap ∧
    inRegions jobOverlap.dests 0x2003 = true :=
  ⟨rfl, by decide, ⟨by decide, fun _ _ => by decide⟩, by decide⟩

theorem witness_RacesGiveFreeBytes : (flying jobP3 memP3).job = some jobP3 ∧
    Ref.canComplete (flying jobP3 memP3) jobP3 ∧ inRegions jobP3.regions (0x100B : Word).toNat = true ∧
    inRegions jobP3.dests (0x2003 : Word).toNat = true := ⟨rfl, can_P3, by decide, by decide⟩

theorem witness_OutputIsSeenAfterReadingStatus : ∃ t, (flying jobP3 memP3).job = some jobP3 ∧
    engineTurn (flying jobP3 memP3) = .next t ∧ admits (flying jobP3 memP3).params (0x2003 : Word).toNat = true ∧
    inRegions jobP3.dests (0x2003 : Word).toNat = true := ⟨_, rfl, rfl, by decide, by decide⟩

theorem witness_EngineIsStuckOnAbsentMemory : jobP3.yRegion ∈ jobP3.regions ∧ 0x2003 ∈ jobP3.yRegion.addrs ∧
    admits paramsAbsent 0x2003 = false ∧ ({ flying jobP3 memP3 with params := paramsAbsent } : State).job = some jobP3 ∧
    ({ flying jobP3 memP3 with params := paramsAbsent } : State).turns = [] := by decide

theorem witness_PlaneRanges : cleanJob (flying jobP4 memP4) jobP4 ∧ jobP4.op = .rgb2ycc ∧ jobP4.valid = true ∧
    Ref.canComplete (flying jobP4 memP4) jobP4 ∧ (flying jobP4 memP4).params.cb444 = Params.defaultCb444 ∧
    (flying jobP4 memP4).params.cr444 = Params.defaultCr444 ∧ 0x5021 ∈ jobP4.crRegion.addrs :=
  ⟨clean_P4, rfl, by decide, can_P4, rfl, rfl, by decide⟩

/-- A memory that differs in the fourth byte of the first source pixel alone. -/
theorem witness_FourthByteIsIgnored : cleanJob (flying jobP4 memP4) jobP4 ∧ jobP4.op = .rgb2ycc ∧
    jobP4.depth = .d32 ∧ jobP4.valid = true ∧ Ref.canComplete (flying jobP4 memP4) jobP4 ∧
    (memP4.write 0x4003 0x12).read 0x4003 ≠ memP4.read 0x4003 ∧
    (memP4.write 0x4003 0x12).read 0x4004 = memP4.read 0x4004 ∧
    0x4003 = jobP4.desc.rgbAddr.toNat + 0 * jobP4.desc.rgbStride.toNat + 4 * 0 + 3 :=
  ⟨clean_P4, rfl, rfl, by decide, can_P4, by decide, by decide, by decide⟩

/-- Each of the four clauses of `StepRunsTheDecodedCommand`. -/
theorem witness_StepRunsTheDecodedCommand :
    nextTurn { State.reset with host := [.write .word 0x00 0x00000000] } = .host ∧
    decode 0x00000000#32 = .command .nop ∧ Instr.wellFormed .nop = true ∧
    decode 0x05000000#32 = .illegal .unassignedOpcode ∧ State.reset.busy = false ∧
    nextTurn { flying jobP3 memP3 with turns := [.host], host := [.write .word 0x00 0x05000000] } = .host ∧
    (flying jobP3 memP3).busy = true := by decide

theorem witness_StepKeepsTheInvariant : Inv (flying jobP3 Memory.empty) ∧
    ∃ t, step (flying jobP3 Memory.empty) = .next t :=
  ⟨⟨by decide, fun j h => by cases h; decide, by decide⟩, _, rfl⟩

theorem witness_ParametersAreNeverWritten : ∃ t, step { flying jobP3 memP3 with turns := [.reset] } = .next t :=
  ⟨_, rfl⟩

/-- A next state, a refusal and a fault, at a base other than 0, and the last address below the window. -/
theorem witness_WindowBaseOnlyMovesTheWindow :
    (∃ t, step (Ref.atBase 0x40000000 [.write .word 0x18 7] State.reset) = .next t) ∧
    refusedBy .registerAccess (step (Ref.atBase 0x40000000 [.read .word 0x40] State.reset)) = true ∧
    step (Ref.atBase 0x40000000 [] { flying jobP3 memP3 with params := paramsAbsent, turns := [.engine] }) =
      .fault .engineStuck ∧
    (0x3FFFFFFF < ({ State.reset with params := paramsHigh } : State).params.windowBase ∧
      refusedBy .registerAccess (hostAct (.poll 0x3FFFFFFF 1 0) { State.reset with params := paramsHigh }) = true) :=
  ⟨⟨_, rfl⟩, by decide, rfl, by decide⟩

theorem witness_JobEndsOnlyByEngineOrReset : (flying jobP3 memP3).job = some jobP3 ∧
    (∃ t, step { flying jobP3 memP3 with turns := [.host] } = .next t) ∧ ∃ t, step (flying jobP3 memP3) = .next t :=
  ⟨rfl, ⟨_, rfl⟩, ⟨_, rfl⟩⟩

theorem witness_ResultIsWrittenByImmediateCommandsOnly :
    ∃ t, step (State.reset.withFetchWord 32 0x04000000) = .next t ∧
      t.result ≠ (State.reset.withFetchWord 32 0x04000000).result := ⟨_, rfl, by decide⟩

theorem witness_ErrIsWrittenByAcceptedCommandsOnly :
    ∃ t, step (State.reset.withFetchWord 32 0x05000000) = .next t ∧
      t.err ≠ (State.reset.withFetchWord 32 0x05000000).err := ⟨_, rfl, by decide⟩

theorem witness_FramesEventuallyComplete : (flying jobP3 memP3).job = some jobP3 ∧
    Ref.canComplete { flying jobP3 memP3 with turns := [.host, .host], host := [.poll 0x04 1 0] } jobP3 ∧
    (∀ op ∈ [HostOp.poll 0x04 1 0], op.legal (flying jobP3 memP3).params = true) ∧
    Turn.reset ∉ [Turn.host, Turn.host] := ⟨rfl, ⟨by decide, fun _ _ => by decide⟩, by decide, by decide⟩

end Sys2Proof.Machine.Tests
end

section
/-! Proofs of the statements about the state. This part says once what a `CMD` write, a host turn, an engine turn and a
step can do, and the proofs below are case analyses along those lemmas. -/

namespace Sys2Proof.Machine

/-! ### The outcomes of a `CMD` write -/

/-- `NOP` is accepted and does no more (40_command.md R63). -/
theorem exec_nop_idle {s : State} (h : s.busy = false) : exec .nop s = .next s.accept := issue_idle s _ h

/-- What a `CMD` write of the word `w` in state `s` can leave (R61, R62). -/
inductive CmdEffect (w : Word) (s : State) : State → Prop where
  | dropped (busy : s.busy = true) : CmdEffect w s s.drop
  | accepted (idle : s.busy = false) : CmdEffect w s s.accept
  | result (idle : s.busy = false) (i : Instr) (decoded : decode w = .command i) (immediate : isFrame i = false)
      (notNop : i ≠ .nop) (v : Word) : CmdEffect w s (s.accept.setResult v)
  | raised (idle : s.busy = false) (code : ErrCode) : CmdEffect w s (s.accept.raise code)
  | latched (idle : s.busy = false) (j : Job) (valid : j.valid = true) : CmdEffect w s (s.accept.latch j)

/-- A `CMD` write that answers a next state has one of the effects of `CmdEffect`. -/
theorem issueWord_effect {w : Word} {s t : State} (h : issueWord w s = .next t) : CmdEffect w s t := by
  obtain ⟨i, hw, he⟩ | ⟨_, _, ⟨hb, rfl⟩ | ⟨hb, rfl⟩⟩ := issueWord_cases h
  · obtain ⟨hb, rfl⟩ | ⟨hb, hi, rfl | ⟨v, rfl⟩⟩ | ⟨hb, _, ⟨code, _, rfl⟩ | ⟨j, hj, _, rfl⟩⟩ := exec_cases he
    · exact .dropped hb
    · exact .accepted hb
    · by_cases hn : i = .nop
      · rw [hn, exec_nop_idle hb] at he
        cases he
        exact .accepted hb
      · exact .result hb i hw hi hn v
    · exact .raised hb code
    · exact .latched hb j hj
  · exact .dropped hb
  · exact .raised hb .illegalCmd

/-- A `CMD` write leaves the parameters (10_state.md R15). -/
theorem CmdEffect.params_eq {w : Word} {s t : State} (h : CmdEffect w s t) : t.params = s.params := by
  cases h <;> rfl

/-- While BUSY is 1 a `CMD` write leaves the job in flight (R62). -/
theorem CmdEffect.job_eq_of_busy {w : Word} {s t : State} (h : CmdEffect w s t) (hb : s.busy = true) :
    t.job = s.job := by
  cases h with
  | dropped => rfl
  | accepted idle | result idle | raised idle | latched idle => simp [hb] at idle

/-- A `CMD` write that changes RESULT is an accepted immediate command other than NOP (10_state.md R20). -/
theorem CmdEffect.of_result_ne {w : Word} {s t : State} (h : CmdEffect w s t) (hne : t.result ≠ s.result) :
    s.busy = false ∧ ∃ i, decode w = .command i ∧ isFrame i = false ∧ i ≠ .nop := by
  cases h with
  | result idle i decoded immediate notNop => exact ⟨idle, i, decoded, immediate, notNop⟩
  | dropped | accepted | raised | latched => exact absurd rfl hne

/-! ### The outcomes of a move -/

/-- The move is no `CMD` write and no completion: it leaves JOB, ERR, RESULT and the parameters, keeps memory canonical,
and marks a race only while BUSY is 1. -/
structure QuietMove (s t : State) : Prop where
  job_eq : t.job = s.job
  err_eq : t.err = s.err
  result_eq : t.result = s.result
  params_eq : t.params = s.params
  raced : t.raced = s.raced ∨ s.busy = true
  wf : s.mem.wf → t.mem.wf

/-- A host access issues a word or is quiet (20_memory.md R33). -/
theorem hostAct_issue_or_quiet {op : HostOp} {s t : State} (h : hostAct op s = .next t) :
    (∃ w, op = wrOp s.params 0x00 w ∧ issueWord w s = .next t) ∨ QuietMove s t := by
  obtain hw | ⟨d, rfl⟩ | ⟨rs, us, ops, rfl⟩ | ⟨rs, n, rfl⟩ | ⟨a, b, r, _, ha, rfl, hr⟩ := hostAct_cases h
  · exact .inl hw
  · exact .inr ⟨rfl, rfl, rfl, rfl, .inl rfl, id⟩
  · exact .inr ⟨rfl, rfl, rfl, rfl, .inl rfl, id⟩
  · exact .inr ⟨rfl, rfl, rfl, rfl, .inl rfl, id⟩
  · exact .inr ⟨rfl, rfl, rfl, rfl, hr.imp id And.right, fun hm => write_wf _ _ _ hm (admits_lt _ _ ha)⟩

/-- A host turn issues the word of the `CMD` write at the head of the host's list, or is quiet. -/
theorem hostTurn_issue_or_quiet {s t : State} (h : hostTurn s = .next t) :
    (∃ w rest, s.host = wrOp s.params 0x00 w :: rest ∧ issueWord w (s.setHost rest) = .next t) ∨ QuietMove s t := by
  unfold hostTurn at h
  split at h
  next => cases h; exact .inr ⟨rfl, rfl, rfl, rfl, .inl rfl, id⟩
  next op rest hops =>
    obtain ⟨w, rfl, hw⟩ | ⟨hj, he, hr, hp, hraced, hwf⟩ := hostAct_issue_or_quiet h
    · exact .inl ⟨w, rest, hops, hw⟩
    · exact .inr ⟨hj, he, hr, hp, hraced, hwf⟩

/-- An engine turn completes the job in flight, or does nothing where there is none (43_color_frame.md R96). -/
theorem engineTurn_cases {s t : State} (h : engineTurn s = .next t) :
    (s.job = none ∧ t = s) ∨ ∃ j, s.job = some j ∧ completeJob j s = .next t := by
  unfold engineTurn at h
  split at h
  next j hj => exact .inr ⟨j, hj, h⟩
  next hj => cases h; exact .inl ⟨hj, rfl⟩

/-- An engine turn leaves ERR, RESULT and the parameters, and no job in flight (R96). -/
theorem engineTurn_frame {s t : State} (h : engineTurn s = .next t) :
    t.job = none ∧ t.err = s.err ∧ t.result = s.result ∧ t.params = s.params := by
  obtain ⟨hj, rfl⟩ | ⟨j, _, hc⟩ := engineTurn_cases h
  · exact ⟨hj, rfl, rfl, rfl⟩
  · obtain ⟨_, _, rfl⟩ := completeJob_cases hc
    exact ⟨rfl, rfl, rfl, rfl⟩

/-- What a step can do, by the agent whose turn it is: the host issues a word or moves quietly, the engine takes its turn,
or the block is reset. -/
theorem step_cases {s t : State} (h : step s = .next t) :
    (nextTurn s = .host ∧ ∃ w rest, s.host = wrOp s.params 0x00 w :: rest ∧
      CmdEffect w ((s.setTurns s.turns.tail).setHost rest) t) ∨
    (nextTurn s = .host ∧ QuietMove (s.setTurns s.turns.tail) t) ∨
    (nextTurn s = .engine ∧ engineTurn (s.setTurns s.turns.tail) = .next t) ∨
    (nextTurn s = .reset ∧ t = resetTurn (s.setTurns s.turns.tail)) := by
  unfold step at h
  cases hn : nextTurn s with
  | host =>
    rw [hn] at h
    obtain ⟨w, rest, hops, hw⟩ | hq := hostTurn_issue_or_quiet h
    · exact .inl ⟨rfl, w, rest, hops, issueWord_effect hw⟩
    · exact .inr (.inl ⟨rfl, hq⟩)
  | engine =>
    rw [hn] at h
    exact .inr (.inr (.inl ⟨rfl, h⟩))
  | reset =>
    rw [hn] at h
    cases h
    exact .inr (.inr (.inr ⟨rfl, rfl⟩))

/-! ### What every step keeps -/

/-- With no job in flight and no race marked, the invariant says that memory is canonical. -/
theorem inv_of_no_job {s : State} (hm : s.mem.wf) (hj : s.job = none) (hr : s.raced = false) : Inv s :=
  ⟨hm, by simp [hj], by simp [hr]⟩

/-- A `CMD` write keeps the invariant: a job is latched only where it passed its checks (43_color_frame.md R91). -/
theorem CmdEffect.inv {w : Word} {s t : State} (h : CmdEffect w s t) (hs : Inv s) : Inv t := by
  cases h with
  | dropped | accepted | result | raised => exact hs
  | latched _ j valid =>
    obtain ⟨hm, _, _⟩ := hs
    refine ⟨hm, fun j' hj' => ?_, fun _ => rfl⟩
    cases hj'
    exact valid

/-- A quiet move keeps the invariant. -/
theorem QuietMove.inv {s t : State} (h : QuietMove s t) (hs : Inv s) : Inv t := by
  obtain ⟨hm, hj, hr⟩ := hs
  refine ⟨h.wf hm, fun j hj' => hj j (h.job_eq ▸ hj'), fun hraced => ?_⟩
  have hbusy : t.busy = s.busy := by simp [State.busy, h.job_eq]
  rw [hbusy]
  obtain heq | hb := h.raced
  · exact hr (heq ▸ hraced)
  · exact hb

/-- An engine turn keeps the invariant: a completion writes admitted bytes only (20_memory.md R36), and its job ends with
its race. -/
theorem engineTurn_inv {s t : State} (h : engineTurn s = .next t) (hs : Inv s) : Inv t := by
  obtain ⟨_, rfl⟩ | ⟨j, _, hc⟩ := engineTurn_cases h
  · exact hs
  · obtain ⟨ha, _, rfl⟩ := completeJob_cases hc
    obtain ⟨hm, _, _⟩ := hs
    refine inv_of_no_job (writeAll_wf _ _ hm fun c hc => ?_) rfl rfl
    obtain ⟨_, hadmits⟩ := completionCells_addr ha hc
    exact admits_lt _ _ hadmits

/-- The free cells of any regions keep memory canonical. -/
theorem writeAll_freeCells_wf {m : Memory} (h : m.wf) (q : Params) (n : Nat) (rs : List Region) :
    (m.writeAll (freeCells q n rs)).wf := by
  refine writeAll_wf _ _ h fun c hc => ?_
  obtain ⟨_, ha, _⟩ := (mem_freeCells _ _ _ _).mp hc
  exact admits_lt _ _ ha

/-- A reset keeps the invariant: the abandoned job's bytes are drawn at admitted addresses (70_reset_and_hazards.md
R110). -/
theorem resetTurn_inv {s : State} (hs : Inv s) : Inv (resetTurn s) := by
  obtain ⟨hm, _, _⟩ := hs
  rw [resetTurn_eq]
  refine inv_of_no_job ?_ rfl rfl
  cases s.job with
  | none => exact hm
  | some j => exact writeAll_freeCells_wf hm _ _ _

/-- Settles O53, by the agent that moves: each kind of move keeps the invariant, which does not speak of the lists of
turns and host accesses. -/
theorem stepKeepsTheInvariant : Obligations.StepKeepsTheInvariant := by
  intro s t hs h
  have hs : Inv (s.setTurns s.turns.tail) := hs
  obtain ⟨_, _, _, _, he⟩ | ⟨_, hq⟩ | ⟨_, he⟩ | ⟨_, rfl⟩ := step_cases h
  · exact he.inv hs
  · exact hq.inv hs
  · exact engineTurn_inv he hs
  · exact resetTurn_inv hs

/-- Settles O54, by the agent that moves. -/
theorem parametersAreNeverWritten : Obligations.ParametersAreNeverWritten := by
  intro s t h
  obtain ⟨_, _, _, _, he⟩ | ⟨_, hq⟩ | ⟨_, he⟩ | ⟨_, rfl⟩ := step_cases h
  · exact he.params_eq
  · exact hq.params_eq
  · obtain ⟨_, _, _, hparams⟩ := engineTurn_frame he
    exact hparams
  · simp [resetTurn_eq]

/-- Settles O55: a host's turn drops its `CMD` write or is quiet, and the other two agents leave no job. -/
theorem jobEndsOnlyByEngineOrReset : Obligations.JobEndsOnlyByEngineOrReset := by
  intro s t j hj h
  have hb : s.busy = true := (busy_iff_job s).mpr ⟨j, hj⟩
  obtain ⟨hn, _, _, _, he⟩ | ⟨hn, hq⟩ | ⟨hn, he⟩ | ⟨hn, rfl⟩ := step_cases h
  · exact .inl ⟨hn, (he.job_eq_of_busy hb).trans hj⟩
  · exact .inl ⟨hn, hq.job_eq.trans hj⟩
  · obtain ⟨hnone, _⟩ := engineTurn_frame he
    exact .inr (.inl ⟨hn, hnone⟩)
  · exact .inr (.inr ⟨hn, by simp [resetTurn_eq]⟩)

/-- Settles O56: of all moves short of a reset, only an accepted immediate command other than NOP changes RESULT. -/
theorem resultIsWrittenByImmediateCommandsOnly : Obligations.ResultIsWrittenByImmediateCommandsOnly := by
  intro s t h hne
  obtain ⟨hn, w, rest, hops, he⟩ | ⟨_, hq⟩ | ⟨_, he⟩ | ⟨hn, _⟩ := step_cases h
  · obtain ⟨hidle, i, hdec, himm, hnop⟩ := he.of_result_ne hne
    exact .inr ⟨hn, hidle, i, w, rest, hops, hdec, himm, hnop⟩
  · exact absurd hq.result_eq hne
  · obtain ⟨_, _, hresult, _⟩ := engineTurn_frame he
    exact absurd hresult hne
  · exact .inl hn

/-! ### Frames of the commands -/

/-- Settles O39, by the outcomes of an immediate command: dropped, accepted alone, or its value written. -/
theorem immediateCommandFrame : Obligations.ImmediateCommandFrame := by
  intro i s t hi h
  obtain ⟨hb, rfl⟩ | ⟨hb, _, rfl | ⟨v, rfl⟩⟩ | ⟨_, hframe, _⟩ := exec_cases h
  · simp [Ref.sameHost, hb]
  · simp [Ref.sameHost, hb]
  · have hnop : i = .nop → v = s.result := by
      rintro rfl
      rw [exec_nop_idle hb] at h
      injection h with h
      exact (congrArg State.result h).symm
    simpa [Ref.sameHost, hb] using hnop
  · simp [hi] at hframe

/-- Settles O40, by the outcomes of a frame command's `CMD` write: dropped, an error raised, or its job latched. -/
theorem frameCommandFrame : Obligations.FrameCommandFrame := by
  intro i s t hi h
  obtain ⟨hb, rfl⟩ | ⟨_, himm, _⟩ | ⟨hb, _, ⟨code, hcode, rfl⟩ | ⟨j, hj, hd, rfl⟩⟩ := exec_cases h
  · simp [Ref.sameHost, hb]
  · simp [hi] at himm
  · have hnone : s.job = none := (not_busy_iff_job s).mp hb
    simp [Ref.sameHost, hb, hcode, hnone]
  · simp [Ref.sameHost, hb, hj, hd]

/-! ### Register accesses of the host -/

/-- A 32-bit read at the offset of a register reads it (20_memory.md R31). -/
theorem hostAct_rdOp {s : State} {offset : Nat} {r : Reg} (hr : regAt offset = some r) :
    hostAct (rdOp s.params offset) s = .next (readReg offset r s) := by
  simp [hostAct, rdOp, hr]

/-- A 32-bit write at the offset of a register writes it (R31). -/
theorem hostAct_wrOp {s : State} {offset : Nat} {r : Reg} (hr : regAt offset = some r) (w : Word) :
    hostAct (wrOp s.params offset w) s = writeReg r w s := by
  simp [hostAct, wrOp, hr]

/-- A 32-bit read that has a next state reads the register at its offset (R31, R32). -/
theorem hostAct_rdOp_cases {s t : State} {offset : Nat} (h : hostAct (rdOp s.params offset) s = .next t) :
    ∃ r, regAt offset = some r ∧ t = readReg offset r s := by
  cases hr : regAt offset with
  | none => simp [hostAct, rdOp, hr] at h
  | some r =>
    rw [hostAct_rdOp hr] at h
    cases h
    exact ⟨r, rfl, rfl⟩

@[simp] theorem readReg_params (offset : Nat) (r : Reg) (s : State) : (readReg offset r s).params = s.params := by
  rw [readReg_eq]

@[simp] theorem readReg_replies (offset : Nat) (r : Reg) (s : State) :
    (readReg offset r s).replies = .reg offset (regRead s r) :: s.replies := by
  rw [readReg_eq]

/-- No register reads differently after a read (R33). -/
@[simp] theorem regRead_readReg (offset : Nat) (r r' : Reg) (s : State) :
    regRead (readReg offset r s) r' = regRead s r' := by
  rw [readReg_eq]
  cases r' <;> rfl

/-- A read leaves the block's state, the host's accesses to come, the scheduler's choices and the count of draws (R33). -/
theorem readReg_frame (offset : Nat) (r : Reg) (s : State) :
    Ref.sameBlock s (readReg offset r s) ∧ (readReg offset r s).host = s.host ∧
      (readReg offset r s).turns = s.turns ∧ (readReg offset r s).draws = s.draws := by
  simp [readReg_eq, Ref.sameBlock]

/-- Settles O12: a read changes the host's replies and the list of regions not yet seen only, so a second read is of the
same value. -/
theorem registerReadsHaveNoSideEffect : Obligations.RegisterReadsHaveNoSideEffect := by
  intro s offset t h
  obtain ⟨r, hr, rfl⟩ := hostAct_rdOp_cases h
  have hagain := hostAct_rdOp (s := readReg offset r s) hr
  rw [readReg_params] at hagain
  obtain ⟨hblock, hhost, hturns, hdraws⟩ := readReg_frame offset r s
  exact ⟨hblock, hhost, hturns, hdraws, _, readReg_replies offset r s, _, hagain, by simp⟩

/-- `STATUS` as a number: BUSY + 2·OVR + 16·ERR (10_state.md R19). -/
theorem statusWord_eq (s : State) :
    statusWord s = BitVec.ofNat 32 (s.busy.toNat + 2 * s.ovr.toNat + 16 * Ref.errNumber s.err) := by
  unfold statusWord
  cases s.busy <;> cases s.ovr <;> cases s.err <;> rfl

/-- Each row of the table of R17 is the value of the register at its offset. -/
theorem regAt_of_mem_readTable {s : State} {offset : Nat} {v : Word} (h : (offset, v) ∈ Ref.readTable s) :
    ∃ r, regAt offset = some r ∧ regRead s r = v := by
  have hall : ∀ row ∈ Ref.readTable s, ∃ r, regAt row.1 = some r ∧ regRead s r = row.2 := by
    rw [Ref.readTable, ← statusWord_eq]
    simp only [List.forall_mem_cons, BitVec.ofNat_toNat]
    exact ⟨⟨.cmd, rfl, rfl⟩, ⟨.status, rfl, rfl⟩, ⟨.result, rfl, rfl⟩, ⟨.reserved, rfl, rfl⟩, ⟨.rgbAddr, rfl, rfl⟩,
      ⟨.rgbStride, rfl, rfl⟩, ⟨.width, rfl, rfl⟩, ⟨.height, rfl, rfl⟩, ⟨.yAddr, rfl, rfl⟩, ⟨.yStride, rfl, rfl⟩,
      ⟨.cbAddr, rfl, rfl⟩, ⟨.cbStride, rfl, rfl⟩, ⟨.crAddr, rfl, rfl⟩, ⟨.crStride, rfl, rfl⟩, ⟨.reserved, rfl, rfl⟩,
      ⟨.reserved, rfl, rfl⟩, by simp⟩
  exact hall _ h

/-- Settles O9: the read is of the register at the offset, whose value is the table's. -/
theorem registerReads : Obligations.RegisterReads := by
  intro s offset v h
  obtain ⟨r, hr, rfl⟩ := regAt_of_mem_readTable h
  exact ⟨_, hostAct_rdOp hr, readReg_replies offset r s⟩

/-- A write to a register other than `CMD` changes the descriptor at most (R25). -/
theorem writeReg_of_ne_cmd {r : Reg} (hr : r ≠ .cmd) (w : Word) (s : State) :
    writeReg r w s = .next (s.setDesc (descWrite s.desc r w)) := by
  cases r with
  | cmd => exact absurd rfl hr
  | _ => rfl

/-- Cutting a word to 16 bits keeps its lower half (R22). -/
theorem setWidth_setWidth_16 (w : Word) : (w.setWidth 16).setWidth 32 = w &&& 0xFFFF#32 := by
  apply BitVec.eq_of_toNat_eq
  have hlt : w.toNat % 65536 < 4294967296 := by omega
  have hand : w.toNat &&& 65535 = w.toNat % 65536 := Nat.and_two_pow_sub_one_eq_mod w.toNat 16
  simp [hand, Nat.mod_eq_of_lt hlt]

/-- A register reads as the value written to it, cut as R22 says (R25). -/
theorem regRead_descWrite_self (s : State) (r : Reg) (w : Word) :
    regRead (s.setDesc (descWrite s.desc r w)) r = Ref.written r w (regRead s r) := by
  cases r with
  | width | height => exact setWidth_setWidth_16 w
  | _ => rfl

/-- A write to a register leaves what every other register reads as (R25). -/
theorem regRead_descWrite_of_ne (s : State) {r r' : Reg} (h : r' ≠ r) (w : Word) :
    regRead (s.setDesc (descWrite s.desc r w)) r' = regRead s r' := by
  cases r <;> cases r' <;> try rfl
  all_goals exact absurd rfl h

/-- Settles O10: the write takes the descriptor's new value, and reads are by register. -/
theorem registerWrites : Obligations.RegisterWrites := by
  intro s offset r w hr hne
  refine ⟨s.setDesc (descWrite s.desc r w), ?_, regRead_descWrite_self s r w,
    fun r' hr' => regRead_descWrite_of_ne s hr' w, ?_⟩
  · rw [hostAct_wrOp hr, writeReg_of_ne_cmd hne]
  · simp [Ref.sameHost]

end Sys2Proof.Machine
end

section
/-! Proofs of the statements about the bus. This part says once which accesses name a register, what an access to memory
and the completion of a job can do, and that placing the register window commutes with every move. -/

namespace Sys2Proof.Machine

/-! ### Accesses outside the register window -/

/-- The registers stand at the sixteen multiples of 4 from 0 to 0x3C (10_state.md R17, 20_memory.md R31). -/
theorem regAt_isSome_iff (offset : Nat) : (regAt offset).isSome = true ↔ offset % 4 = 0 ∧ offset ≤ 0x3C := by
  constructor
  · intro h
    unfold regAt at h
    split at h <;> simp_all
  · rintro ⟨hmod, hle⟩
    have hall : ∀ k < 16, (regAt (4 * k)).isSome = true := by decide
    have h := hall (offset / 4) (by omega)
    rwa [show 4 * (offset / 4) = offset by omega] at h

/-- An access that is not 32 bits wide, or names no register by its offset, is not legal (R32). -/
theorem accessedReg_base_eq_none {q : Params} {size : AccessSize} {offset : Nat}
    (h : ¬(size = .word ∧ offset % 4 = 0 ∧ offset ≤ 0x3C)) : accessedReg q size (q.windowBase + offset) = none := by
  cases size with
  | byte | half => rfl
  | word =>
    have hnone : ¬(regAt offset).isSome = true := fun hr => h ⟨rfl, (regAt_isSome_iff offset).mp hr⟩
    simpa using hnone

/-- No access below the window is legal (R37). -/
theorem accessedReg_below {q : Params} {addr : Nat} (size : AccessSize) (h : addr < q.windowBase) :
    accessedReg q size addr = none := by
  cases size with
  | byte | half => rfl
  | word => simp [accessedReg, windowOffset, Nat.not_le_of_lt h]

section
variable {s : State} {size : AccessSize} {addr : Nat}

/-- A register write that is not legal is refused (R32). -/
theorem hostAct_write_refused (h : accessedReg s.params size addr = none) (w : Word) :
    hostAct (.write size addr w) s = .refused .registerAccess := by
  simp [hostAct, h]

/-- A register read that is not legal is refused (R32). -/
theorem hostAct_read_refused (h : accessedReg s.params size addr = none) :
    hostAct (.read size addr) s = .refused .registerAccess := by
  simp [hostAct, h]

/-- A poll at an address with no legal access is refused (R32, 30_encoding.md R59). -/
theorem hostAct_poll_refused (h : accessedReg s.params .word addr = none) (mask value : Word) :
    hostAct (.poll addr mask value) s = .refused .registerAccess := by
  simp [hostAct, h]

end

/-- Settles O11: only the offsets of the sixteen registers are legal, and only for a 32-bit access. -/
theorem otherAccessesRefused : Obligations.OtherAccessesRefused := by
  intro s size offset w m v
  refine ⟨fun h => ?_, fun h => ?_, fun hmod hle => ?_⟩
  · have hnone := accessedReg_base_eq_none (q := s.params) h
    exact ⟨hostAct_write_refused hnone w, hostAct_read_refused hnone⟩
  · exact hostAct_poll_refused (accessedReg_base_eq_none fun hlegal => h hlegal.2) m v
  · obtain ⟨r, hr⟩ := Option.isSome_iff_exists.mp ((regAt_isSome_iff offset).mpr ⟨hmod, hle⟩)
    exact ⟨_, hostAct_rdOp hr⟩

/-! ### Accesses of the host to memory -/

/-- A write to an admitted byte lands at once, and marks a race where it hits a region of the job in flight (20_memory.md
R42). -/
theorem hostAct_memWrite {s : State} {x : Word} (ha : admits s.params x.toNat = true) (b : Byte) :
    hostAct (.memWrite x b) s =
      .next { s with mem := s.mem.write x.toNat b, raced := writeRaces s x.toNat || s.raced } := by
  cases hr : writeRaces s x.toNat <;> simp [hostAct, hostMemWrite, ha, hr, State.setMem, State.markRaced]

/-- A write to memory that has a next state is to an admitted byte (R36). -/
theorem admits_of_hostAct_memWrite {s t : State} {x : Word} {b : Byte} (h : hostAct (.memWrite x b) s = .next t) :
    admits s.params x.toNat = true := by
  cases ha : admits s.params x.toNat with
  | true => rfl
  | false => simp [hostAct, hostMemWrite, ha] at h

/-- A read of a byte whose value is open is a draw (R41, R42). -/
theorem hostAct_memRead_free {s : State} {x : Word} (ha : admits s.params x.toNat = true)
    (hf : readIsFree s x.toNat = true) :
    hostAct (.memRead x) s = .next (s.reply (.mem x (Config.freeByte s.draws x.toNat))).countDraw := by
  simp [hostAct, hostMemRead, ha, hf]

/-- A read of any other byte is of what memory holds (R44). -/
theorem hostAct_memRead_settled {s : State} {x : Word} (ha : admits s.params x.toNat = true)
    (hf : readIsFree s x.toNat = false) :
    hostAct (.memRead x) s = .next (s.reply (.mem x (s.mem.read x.toNat))) := by
  simp [hostAct, hostMemRead, ha, hf]

/-- Settles O14: a memory write is taken apart by its own rule, and of the other accesses short of a `CMD` write none
touches memory or a field the statement names. -/
theorem onlyCmdWritesHaveSideEffects : Obligations.OnlyCmdWritesHaveSideEffects := by
  intro s op t hcmd h
  by_cases hop : ∃ x b, op = .memWrite x b
  · obtain ⟨x, b, rfl⟩ := hop
    rw [hostAct_memWrite (admits_of_hostAct_memWrite h)] at h
    cases h
    refine ⟨rfl, rfl, rfl, rfl, rfl, fun a hne => ?_, fun x' b' heq => ?_⟩
    · exact read_write_ne _ _ _ _ (hne b x rfl).symm
    · cases heq
      exact ⟨read_write_self _ _ _, rfl⟩
  · have hvacuous : ∀ x b, op ≠ .memWrite x b := fun x b heq => hop ⟨x, b, heq⟩
    obtain ⟨w, heq, _⟩ | ⟨_, rfl⟩ | ⟨_, _, _, rfl⟩ | ⟨_, _, rfl⟩ | ⟨x, b, _, heq, _⟩ := hostAct_cases h
    · exact absurd heq (hcmd w)
    · simp [hvacuous]
    · simp [hvacuous]
    · simp [hvacuous]
    · exact absurd heq (hvacuous x b)

/-! ### The bytes of a job that passed its checks -/

/-- No byte of a region lies past its last byte (43_color_frame.md R88, R89). -/
theorem addrs_le_of_not_pastEnd {r : Region} (h : r.pastEnd = false) {a : Nat} (ha : a ∈ r.addrs) :
    a ≤ 0xFFFFFFFF := by
  obtain ⟨i, hi, k, hk, rfl⟩ := (mem_addrs r a).mp ha
  have hend : r.base + r.stride * (r.rows - 1) + r.rowBytes - 1 ≤ 0xFFFFFFFF := by simpa [Region.pastEnd] using h
  have hrow : i * r.stride ≤ r.stride * (r.rows - 1) := by
    rw [Nat.mul_comm]
    exact Nat.mul_le_mul_left _ (by omega)
  omega

/-- In a job that passed its checks no region ends past the address space (R89, check 4). -/
theorem valid_not_pastEnd {j : Job} (h : j.valid = true) {r : Region} (hr : r ∈ j.regions) : r.pastEnd = false := by
  simp only [Job.valid, argumentsBad, Bool.and_eq_true, Bool.not_eq_true', Bool.or_eq_false_iff, List.any_eq_false] at h
  obtain ⟨⟨_, hend⟩, _⟩ := h
  simpa using hend r hr

/-- Without absent ranges the platform admits the whole address space (20_memory.md R36). -/
theorem admits_of_absent_nil {q : Params} (hq : q.absent = []) {a : Nat} (ha : a ≤ 0xFFFFFFFF) : admits q a = true := by
  have hlt : a < Config.addressSpace := Nat.lt_succ_of_le ha
  simp [admits, hq, hlt]

/-- Settles O38: check 4 bounds each region's last byte, and with it all of its bytes. -/
theorem checkedJobsStayInTheAddressSpace : Obligations.CheckedJobsStayInTheAddressSpace := by
  intro j hj
  have hbound : ∀ r ∈ j.regions, ∀ a ∈ r.addrs, a ≤ 0xFFFFFFFF :=
    fun r hr a ha => addrs_le_of_not_pastEnd (valid_not_pastEnd hj hr) ha
  refine ⟨hbound, fun q hq => ?_⟩
  simp only [Job.admitted, List.all_eq_true]
  exact fun r hr a ha => admits_of_absent_nil hq (hbound r hr a ha)

/-! ### A job in flight -/

/-- The platform admits every byte of the regions of an admitted job (R36). -/
theorem admits_of_inRegions {j : Job} {q : Params} (h : j.admitted q = true) {a : Nat}
    (ha : inRegions j.regions a = true) : admits q a = true := by
  obtain ⟨r, hr, har⟩ := (inRegions_iff _ _).mp ha
  exact admitted_byte h hr har

/-- A destination byte is a byte of the job's regions (43_color_frame.md R88). -/
theorem inRegions_regions_of_dests {j : Job} {a : Nat} (h : inRegions j.dests a = true) :
    inRegions j.regions a = true := by
  obtain ⟨r, hr, har⟩ := (inRegions_iff _ _).mp h
  exact (inRegions_iff _ _).mpr ⟨r, dests_subset_regions j r hr, har⟩

/-- The engine's turn is the completion of the job in flight (R96). -/
theorem engineTurn_of_job {s : State} {j : Job} (h : s.job = some j) : engineTurn s = completeJob j s := by
  simp [engineTurn, h]

/-- A job that can complete does (R96). -/
theorem engineTurn_of_canComplete {s : State} {j : Job} (hj : s.job = some j) (h : Ref.canComplete s j) :
    ∃ t, engineTurn s = .next t := by
  obtain ⟨hadmitted, htuples⟩ := h
  rw [engineTurn_of_job hj]
  refine completeJob_next hadmitted fun h444 => ?_
  obtain ⟨hop, hsubs⟩ : j.op = .rgb2ycc ∧ j.subs = .s444 := by simpa [Job.uses444] using h444
  exact htuples hop hsubs

/-- A completion whose bytes are unspecified leaves every destination byte a free value (20_memory.md R42,
43_color_frame.md R97). -/
theorem read_of_engineTurn_unspecified {s t : State} {j : Job} (hj : s.job = some j) (h : engineTurn s = .next t)
    (hu : j.unspecified s.raced = true) {a : Nat} (ha : inRegions j.dests a = true) :
    t.mem.read a = Config.freeByte s.draws a := by
  rw [engineTurn_of_job hj] at h
  obtain ⟨hadmitted, _, rfl⟩ := completeJob_cases h
  have hadmits := admits_of_inRegions hadmitted (inRegions_regions_of_dests ha)
  simpa [completionCells, hu] using read_freeCells_inside _ _ _ _ a ha hadmits

/-- A write to a region byte of the job in flight marks a race (20_memory.md R42). -/
theorem hostAct_memWrite_race {s : State} {j : Job} {x : Word} (hj : s.job = some j) (ha : admits s.params x.toNat = true)
    (hx : inRegions j.regions x.toNat = true) (b : Byte) :
    hostAct (.memWrite x b) s = .next (s.setMem (s.mem.write x.toNat b)).markRaced := by
  have hraces : writeRaces s x.toNat = true := by simpa [writeRaces, hj] using hx
  rw [hostAct_memWrite ha b, hraces]
  rfl

/-- Settles O46: the racing write marks the race, which makes the completion's bytes unspecified; the read is of an open
byte. -/
theorem racesGiveFreeBytes : Obligations.RacesGiveFreeBytes := by
  intro s j x hj hcan
  have hadmits : ∀ {a}, inRegions j.regions a = true → admits s.params a = true := admits_of_inRegions hcan.1
  refine ⟨fun hx b => ?_, fun hx => ?_⟩
  · have hjob : (s.setMem (s.mem.write x.toNat b)).markRaced.job = some j := hj
    obtain ⟨u, hu⟩ := engineTurn_of_canComplete hjob hcan
    obtain ⟨hnone, _⟩ := engineTurn_frame hu
    exact ⟨_, u, hostAct_memWrite_race hj (hadmits hx) hx b, hu, (not_busy_iff_job u).mpr hnone,
      fun a ha => read_of_engineTurn_unspecified hjob hu rfl ha⟩
  · have hfree : readIsFree s x.toNat = true := by simp [readIsFree, hj, hx]
    exact ⟨_, hostAct_memRead_free (hadmits (inRegions_regions_of_dests hx)) hfree, (busy_iff_job s).mpr ⟨j, hj⟩, rfl⟩

/-! ### After a completion -/

/-- Bit 0 of `STATUS` is BUSY (10_state.md R19). -/
theorem statusWord_bit_zero (s : State) : (statusWord s).getLsbD 0 = s.busy := by
  rw [statusWord, BitVec.getLsbD_append]
  simp

/-- The read of `STATUS` that returns BUSY = 0 settles every byte (20_memory.md R41, R44). -/
theorem readIsFree_readReg_status {s : State} (h : s.job = none) (offset a : Nat) :
    readIsFree (readReg offset .status s) a = false := by
  simp [readReg_eq, readIsFree, State.busy, inRegions, h]

/-- A completion leaves the bytes of its destination regions open until the host has read BUSY = 0 (R41, R115). -/
theorem readIsFree_of_engineTurn {s t : State} {j : Job} (hj : s.job = some j) (h : engineTurn s = .next t) {a : Nat}
    (ha : inRegions j.dests a = true) : readIsFree t a = true := by
  rw [engineTurn_of_job hj] at h
  obtain ⟨_, _, rfl⟩ := completeJob_cases h
  simp only [inRegions] at ha
  simp [readIsFree, inRegions, ha]

/-- Settles O47: the read of `STATUS` after the completion settles every byte, and before it the job's own bytes are
open. -/
theorem outputIsSeenAfterReadingStatus : Obligations.OutputIsSeenAfterReadingStatus := by
  intro s t j x hj h hx
  obtain ⟨hnone, _, _, hparams⟩ := engineTurn_frame h
  have hbusy : t.busy = false := (not_busy_iff_job t).mpr hnone
  have hadmits : admits t.params x.toNat = true := hparams ▸ hx
  have hsettled : hostAct (.memRead x) (readReg 0x04 .status t) = _ :=
    hostAct_memRead_settled (by simpa using hadmits) (readIsFree_readReg_status hnone 0x04 x.toNat)
  refine ⟨⟨_, _, hostAct_rdOp (r := .status) rfl, readReg_replies 0x04 .status t, (statusWord_bit_zero t).trans hbusy,
    hsettled, ?_⟩, fun hdest => ?_⟩
  · simp [readReg_eq]
  · exact ⟨_, hostAct_memRead_free hadmits (readIsFree_of_engineTurn hj h hdest), rfl⟩

/-! ### Absent memory -/

/-- A job with a byte at an absent address is not admitted (R36). -/
theorem not_admitted_of_absent {j : Job} {q : Params} {r : Region} (hr : r ∈ j.regions) {a : Nat} (ha : a ∈ r.addrs)
    (h : admits q a = false) : j.admitted q = false := by
  by_contra hadmitted
  simp [admitted_byte (by simpa using hadmitted) hr ha] at h

/-- Settles O48: such a job is not admitted, which is the fault of the completion and disables the engine. -/
theorem engineIsStuckOnAbsentMemory : Obligations.EngineIsStuckOnAbsentMemory := by
  intro s j r a hj hr ha habsent
  have hadmitted := not_admitted_of_absent hr ha habsent
  refine ⟨?_, fun hturns => ?_⟩
  · rw [engineTurn_of_job hj]
    simp [completeJob, hadmitted]
  · simp [nextTurn, engineEnabled, hturns, hj, hadmitted]

/-! ### The step of a `CMD` write -/

/-- The decoder gives back the command of its word, field by field (30_encoding.md R50 to R52). -/
theorem decode_encode (i : Instr) : decode (encode i) = .command i := by
  cases i <;>
    simp (disch := omega) only [decode, encode, extract_whole_upper (w := 8) (v := 24), BitVec.reduceToNat,
      extract_lower (w := 8) (v := 24)]
  case nop => simp [whenClear]
  case ulaw2lin | alaw2lin => simp [whenClear, extract_lower (w := 16) (v := 8), extract_upper (w := 16) (v := 8)]
  case lin2alaw | lin2ulaw => simp [whenClear, extract_lower (w := 8) (v := 16), extract_upper (w := 8) (v := 16)]
  case pixRgb2ycc | pixRgb2yccHp | pixYcc2rgb =>
    simp [extract_lower (w := 16) (v := 8), extract_upper (w := 16) (v := 8), extract_lower (w := 8) (v := 8),
      extract_upper (w := 8) (v := 8)]
  case frmRgb2ycc | frmYcc2rgb =>
    simp [whenClear, extract_lower (w := 16) (v := 8), extract_upper (w := 16) (v := 8),
      extract_lower (w := 14) (v := 2), extract_upper (w := 14) (v := 2)]

/-- Where it is the host's turn and a `CMD` write is its next access, the step issues the word, with the access and the
turn taken off their lists (40_command.md R61). -/
theorem step_of_cmd_write {s : State} {w : Word} {rest : List HostOp} (hn : nextTurn s = .host)
    (hops : s.host = wrOp s.params 0x00 w :: rest) :
    step s = issueWord w { s with host := rest, turns := s.turns.tail } := by
  have hwrite : hostAct (wrOp s.params 0x00 w) { s with host := rest, turns := s.turns.tail } =
      issueWord w { s with host := rest, turns := s.turns.tail } :=
    hostAct_wrOp (s := { s with host := rest, turns := s.turns.tail }) (r := .cmd) rfl w
  rw [← hwrite]
  simp [step, hn, move, hostTurn, hops, State.setHost, State.setTurns]

/-- A word that decodes issues its command (R61). -/
theorem issueWord_command {w : Word} {i : Instr} (h : decode w = .command i) (s : State) :
    issueWord w s = exec i s := by
  simp [issueWord, h]

/-- A word that does not decode is an illegal command (R61). -/
theorem issueWord_illegal {w : Word} {why : Illegal} (h : decode w = .illegal why) (s : State) :
    issueWord w s = issueIllegal s := by
  simp [issueWord, h]

/-- Settles O51: the step issues the word, and the word of a command decodes to it. -/
theorem stepRunsTheDecodedCommand : Obligations.StepRunsTheDecodedCommand := by
  refine ⟨fun s w rest hn hops => ?_, fun s i _ => ?_⟩
  · rw [step_of_cmd_write hn hops]
    refine ⟨fun i hw _ => issueWord_command hw _, fun why hw hb => ?_, fun why hw hb => ?_⟩
    · rw [issueWord_illegal hw]
      exact issue_idle _ _ hb
    · rw [issueWord_illegal hw]
      exact issue_busy _ _ hb
  · have hword : BitVec.ofNat 32 ((encode i).toNat % 2 ^ 32) = encode i := by
      rw [Nat.mod_eq_of_lt (encode i).isLt, BitVec.ofNat_toNat, BitVec.setWidth_eq]
    have hstep := step_of_cmd_write (s := s.withFetchWord 32 (encode i).toNat) rfl rfl
    rw [hword, issueWord_command (decode_encode i)] at hstep
    exact hstep

/-! ### Placing the register window -/

/-- The outcome with its next state, where it has one, changed by `f`. -/
def mapNext (f : State → State) : Outcome → Outcome
  | .next s => .next (f s)
  | .fault r => .fault r
  | .refused r => .refused r

@[simp] theorem mapNext_next (f : State → State) (s : State) : mapNext f (.next s) = .next (f s) := rfl
@[simp] theorem mapNext_fault (f : State → State) (r : Fault) : mapNext f (.fault r) = .fault r := rfl
@[simp] theorem mapNext_refused (f : State → State) (r : Refusal) : mapNext f (.refused r) = .refused r := rfl

/-- The state with the register window at `base`, where its host accesses are given by their offsets (20_memory.md R37,
30_encoding.md R60). -/
def placeWindow (base : Nat) (s : State) : State := Ref.atBase base s.host s

/-- The state with the host's accesses given by the offsets `ops`, which are their addresses where the window is at 0. -/
def byOffset (ops : List HostOp) (s : State) : State :=
  { s with params := { s.params with windowBase := 0 }, host := ops }

/-- A state whose accesses are given by offset is the one with the window at 0, its window placed. -/
theorem atBase_eq_placeWindow (base : Nat) (ops : List HostOp) (s : State) :
    Ref.atBase base ops s = placeWindow base (byOffset ops s) := rfl

section
variable (base : Nat)

/-- No register's value depends on where the window is (R37). -/
@[simp] theorem regRead_placeWindow (s : State) (r : Reg) : regRead (placeWindow base s) r = regRead s r := by
  cases r <;> rfl

/-- The engine's turn commutes with placing the window: a completion asks of the platform only which addresses its memory
admits (R36). -/
theorem engineTurn_placeWindow (s : State) :
    engineTurn (placeWindow base s) = mapNext (placeWindow base) (engineTurn s) := by
  cases hj : s.job with
  | none =>
    have hj' : (placeWindow base s).job = none := hj
    simp [engineTurn, hj, hj']
  | some j =>
    rw [engineTurn_of_job hj, engineTurn_of_job (s := placeWindow base s) hj]
    simp only [completeJob, apply_ite (mapNext (placeWindow base))]
    rfl

/-- A reset commutes with placing the window. -/
theorem resetTurn_placeWindow (s : State) : resetTurn (placeWindow base s) = placeWindow base (resetTurn s) := by
  rw [resetTurn_eq, resetTurn_eq]
  rfl

/-- Issuing a command commutes with placing the window where the command's effect does. -/
theorem issue_placeWindow (s : State) {effect : State → Outcome}
    (h : ∀ t, effect (placeWindow base t) = mapNext (placeWindow base) (effect t)) :
    issue (placeWindow base s) effect = mapNext (placeWindow base) (issue s effect) := by
  cases hb : s.busy with
  | true => rw [issue_busy s _ hb, issue_busy (placeWindow base s) _ hb]; rfl
  | false => rw [issue_idle s _ hb, issue_idle (placeWindow base s) _ hb]; exact h s.accept

theorem immediate_placeWindow (s : State) (w : Word) :
    immediate (placeWindow base s) w = mapNext (placeWindow base) (immediate s w) :=
  issue_placeWindow base s fun _ => rfl

theorem issueFrame_placeWindow (op : FrameOp) (depth : Byte) (subs : BitVec 2) (s : State) :
    issueFrame op depth subs (placeWindow base s) = mapNext (placeWindow base) (issueFrame op depth subs s) := by
  refine issue_placeWindow base s fun t => ?_
  have hdesc : (placeWindow base t).desc = t.desc := rfl
  simp only [hdesc]
  cases frameCheck op depth subs t.desc <;> rfl

/-- A command commutes with placing the window: of the parameters it reads the 4:4:4 tuples only (42_color_pixel.md R79). -/
theorem exec_placeWindow (i : Instr) (s : State) :
    exec i (placeWindow base s) = mapNext (placeWindow base) (exec i s) := by
  cases i with
  | nop => exact issue_placeWindow base s fun _ => rfl
  | pixRgb2yccHp r g b =>
    simp only [exec, execPixRgb2yccHp, apply_ite (mapNext (placeWindow base)), ← immediate_placeWindow]
    rfl
  | frmRgb2ycc depth subs => exact issueFrame_placeWindow base .rgb2ycc depth subs s
  | frmYcc2rgb depth subs => exact issueFrame_placeWindow base .ycc2rgb depth subs s
  | _ => exact immediate_placeWindow base s _

theorem issueWord_placeWindow (w : Word) (s : State) :
    issueWord w (placeWindow base s) = mapNext (placeWindow base) (issueWord w s) := by
  cases hw : decode w with
  | command i => rw [issueWord_command hw, issueWord_command hw, exec_placeWindow]
  | illegal why =>
    rw [issueWord_illegal hw, issueWord_illegal hw]
    exact issue_placeWindow base s fun _ => rfl

theorem writeReg_placeWindow (r : Reg) (w : Word) (s : State) :
    writeReg r w (placeWindow base s) = mapNext (placeWindow base) (writeReg r w s) := by
  by_cases hr : r = .cmd
  · subst hr
    exact issueWord_placeWindow base w s
  · rw [writeReg_of_ne_cmd hr, writeReg_of_ne_cmd hr]
    rfl

theorem readReg_placeWindow (offset : Nat) (r : Reg) (s : State) :
    readReg offset r (placeWindow base s) = placeWindow base (readReg offset r s) := by
  rw [readReg_eq, readReg_eq, regRead_placeWindow]
  rfl

theorem hostMemRead_placeWindow (x : Word) (s : State) :
    hostMemRead x (placeWindow base s) = mapNext (placeWindow base) (hostMemRead x s) := by
  simp only [hostMemRead, apply_ite (mapNext (placeWindow base))]
  rfl

theorem hostMemWrite_placeWindow (x : Word) (b : Byte) (s : State) :
    hostMemWrite x b (placeWindow base s) = mapNext (placeWindow base) (hostMemWrite x b s) := by
  simp only [hostMemWrite, apply_ite (mapNext (placeWindow base))]
  rfl

variable {s : State} (h0 : s.params.windowBase = 0)
include h0

/-- An offset names the same register wherever the window is (20_memory.md R37). -/
theorem accessedReg_placeWindow (size : AccessSize) (offset : Nat) :
    accessedReg (placeWindow base s).params size (base + offset) = accessedReg s.params size offset := by
  cases size with
  | byte | half => rfl
  | word =>
    have hplaced := accessedReg_base (placeWindow base s).params offset
    have hzero := accessedReg_base s.params offset
    rw [h0, Nat.zero_add] at hzero
    exact hplaced.trans hzero.symm

/-- A host access given by its offset commutes with placing the window (R37). -/
theorem hostAct_placeWindow (op : HostOp) :
    hostAct (Ref.placed base op) (placeWindow base s) = mapNext (placeWindow base) (hostAct op s) := by
  have hoffset : ∀ offset, base + offset - (placeWindow base s).params.windowBase = offset :=
    fun offset => Nat.add_sub_cancel_left base offset
  cases op with
  | write size offset w =>
    simp only [Ref.placed, hostAct, accessedReg_placeWindow base h0]
    cases accessedReg s.params size offset with
    | none => rfl
    | some r => exact writeReg_placeWindow base r w s
  | read size offset =>
    simp only [Ref.placed, hostAct, accessedReg_placeWindow base h0, hoffset, h0, Nat.sub_zero]
    cases accessedReg s.params size offset with
    | none => rfl
    | some r => exact congrArg Host.Outcome.next (readReg_placeWindow base offset r s)
  | poll offset mask value =>
    simp only [Ref.placed, hostAct, accessedReg_placeWindow base h0, hoffset, h0, Nat.sub_zero]
    cases accessedReg s.params .word offset with
    | none => rfl
    | some r =>
      simp only [regRead_placeWindow, readReg_placeWindow, apply_ite (mapNext (placeWindow base))]
      rfl
  | memWrite x b => exact hostMemWrite_placeWindow base x b s
  | memRead x => exact hostMemRead_placeWindow base x s

theorem hostTurn_placeWindow : hostTurn (placeWindow base s) = mapNext (placeWindow base) (hostTurn s) := by
  cases hops : s.host with
  | nil =>
    have hops' : (placeWindow base s).host = [] := by simp [placeWindow, Ref.atBase, hops]
    simp [hostTurn, hops, hops']
  | cons op rest =>
    have hops' : (placeWindow base s).host = Ref.placed base op :: rest.map (Ref.placed base) := by
      simp [placeWindow, Ref.atBase, hops]
    simp only [hostTurn, hops, hops']
    exact hostAct_placeWindow base (s := s.setHost rest) h0 op

/-- A step commutes with placing the window (R37). -/
theorem step_placeWindow : step (placeWindow base s) = mapNext (placeWindow base) (step s) := by
  have hturn : nextTurn (placeWindow base s) = nextTurn s := rfl
  unfold step
  rw [hturn]
  cases nextTurn s with
  | host => exact hostTurn_placeWindow base (s := s.setTurns s.turns.tail) h0
  | engine => exact engineTurn_placeWindow base (s.setTurns s.turns.tail)
  | reset => exact congrArg Host.Outcome.next (resetTurn_placeWindow base (s.setTurns s.turns.tail))

end

/-- Settles O59: at every base the step is that of the window at 0, its outcome placed; and below the window no access is
legal. -/
theorem windowBaseOnlyMovesTheWindow : Obligations.WindowBaseOnlyMovesTheWindow := by
  refine ⟨fun s ops b c => ?_, fun s size addr w m v h => ?_⟩
  · have hstep : ∀ base, step (Ref.atBase base ops s) = mapNext (placeWindow base) (step (byOffset ops s)) :=
      fun base => step_placeWindow base (s := byOffset ops s) rfl
    rw [hstep b, hstep c]
    cases step (byOffset ops s) with
    | next u =>
      simp only [mapNext_next]
      refine ⟨nofun, nofun, fun t ht => ?_⟩
      cases ht
      exact ⟨u.host, rfl, rfl⟩
    | fault f => simp
    | refused r => simp
  · exact ⟨hostAct_write_refused (accessedReg_below size h) w, hostAct_read_refused (accessedReg_below size h),
      hostAct_poll_refused (accessedReg_below .word h) m v⟩

end Sys2Proof.Machine
end

section
/-! Proofs of the statements about the encoding: the decoder and the encoder are inverse, a word that is no command is
illegal, the assembler's word is the encoder's, and a poll is a loop of reads. -/

namespace Sys2Proof.Machine

/-! ### Decoding and encoding -/

/-- Settles O4: every command is well formed and decodes from its word. -/
theorem decodeOfEncode : Obligations.DecodeOfEncode := fun i _ => decode_encode i

/-- A command comes out exactly where its "must be 0" bits are 0 (30_encoding.md R54). -/
theorem whenClear_eq_command {n : Nat} {z : BitVec n} {i j : Instr} :
    whenClear z i = .command j ↔ z = 0#n ∧ i = j := by
  unfold whenClear
  split <;> simp [*]

/-- A word is its opcode and its operand bits (R49). -/
theorem opcode_append_operand {w : Word} {c : Nat} (h : (w.extractLsb' 24 8).toNat = c) :
    BitVec.ofNat 8 c ++ w.extractLsb' 0 24 = w := by
  rw [← h, BitVec.ofNat_toNat, BitVec.setWidth_eq, append_extract]
  exact BitVec.extractLsb'_eq_self

/-- A decoded command has the word it was decoded from. By opcode: the command's fields, with the "must be 0" bits that
the decoder found 0, are adjacent and make up the operand bits (R52, R54). -/
theorem encode_of_decode {w : Word} {i : Instr} (h : decode w = .command i) : encode i = w := by
  unfold decode at h
  split at h <;> rename_i hop
  case h_11 => cases h
  all_goals
    refine Eq.trans ?_ (opcode_append_operand hop)
    simp only [whenClear_eq_command, Decoded.command.injEq] at h
  case h_6 | h_7 | h_8 =>
    subst h
    simp (disch := rfl) only [encode, BitVec.extractLsb'_append_extractLsb'_eq_extractLsb']
  all_goals
    obtain ⟨hz, rfl⟩ := h
    simp (disch := rfl) only [encode, ← hz, BitVec.extractLsb'_append_extractLsb'_eq_extractLsb']

/-- Settles O5, by opcode. -/
theorem encodeOfDecode : Obligations.EncodeOfDecode := fun _ _ => encode_of_decode

/-! ### Words that are no command -/

@[simp] theorem word_opcode (opcode : BitVec 8) (operand : BitVec 24) :
    (Ref.word opcode operand).extractLsb' 24 8 = opcode := extract_whole_upper opcode operand

/-- While BUSY is 0 an illegal word clears OVR and raises ILLEGAL_CMD, and does no more (40_command.md R61, R103). -/
theorem issueWord_illegal_idle {w : Word} {why : Illegal} (hw : decode w = .illegal why) {s : State}
    (hb : s.busy = false) : issueWord w s = .next { s with ovr := false, err := .illegalCmd } := by
  rw [issueWord_illegal hw, issueIllegal, issue_idle _ _ hb]
  rfl

/-- Settles O6: no opcode of the three ranges is a row of the decoder's table. -/
theorem unassignedOpcodesAreIllegal : Obligations.UnassignedOpcodesAreIllegal := by
  intro s opcode operand hrange
  have hdecode : decode (Ref.word opcode operand) = .illegal .unassignedOpcode := by
    simp only [BitVec.le_def, BitVec.reduceToNat] at hrange
    simp only [decode, word_opcode]
    split
    case h_11 => rfl
    all_goals omega
  exact ⟨hdecode, issueWord_illegal_idle hdecode⟩

/-- The top field of a value that reaches the field's lowest bit is not 0. -/
theorem extract_top_ne_zero {n start len : Nat} {x : BitVec n} (h : start + len = n) (hx : 2 ^ start ≤ x.toNat) :
    x.extractLsb' start len ≠ 0#len := by
  have hlt : x.toNat / 2 ^ start < 2 ^ len := Nat.div_lt_of_lt_mul (by rw [← pow_add, h]; exact x.isLt)
  have hpos : 0 < x.toNat / 2 ^ start := Nat.div_pos hx (by positivity)
  rw [Ne, ← BitVec.toNat_inj, BitVec.extractLsb'_toNat, Nat.shiftRight_eq_div_pow, Nat.mod_eq_of_lt hlt]
  simpa using hpos.ne'

/-- Operand bits that reach into the "must be 0" field above bit `start` make the word illegal (R54). -/
theorem whenClear_operand {start len : Nat} (opcode : BitVec 8) {operand : BitVec 24} (h : start + len = 24)
    (hle : 2 ^ start ≤ operand.toNat) (i : Instr) :
    whenClear ((Ref.word opcode operand).extractLsb' start len) i = .illegal .reservedBitSet := by
  rw [Ref.word, extract_lower _ _ _ _ h.le]
  exact if_neg (extract_top_ne_zero h hle)

/-- Settles O7: for each opcode the operand bits reach into its "must be 0" field. -/
theorem reservedBitsAreIllegal : Obligations.ReservedBitsAreIllegal := by
  intro s opcode operand hset
  have hdecode : decode (Ref.word opcode operand) = .illegal .reservedBitSet := by
    simp only [decode, word_opcode]
    rcases hset with ⟨rfl, hne⟩ | ⟨rfl | rfl, hle⟩ | ⟨rfl | rfl, hle⟩ | ⟨rfl | rfl, hle⟩
    · exact whenClear_operand _ rfl (Nat.pos_of_ne_zero fun h0 => hne (BitVec.eq_of_toNat_eq h0)) _
    all_goals exact whenClear_operand _ rfl hle _
  exact ⟨hdecode, issueWord_illegal_idle hdecode⟩

/-! ### The assembler -/

/-- `opcode << 24 | fields` is `{OPC, OPD}` (R49, R57). -/
theorem asmWord_eq_append (opcode : BitVec 8) {operand : BitVec 24} {fields : Nat} (h : fields = operand.toNat) :
    asmWord opcode.toNat fields = opcode ++ operand := by
  rw [asmWord, h, ← BitVec.toNat_append, BitVec.ofNat_toNat, BitVec.setWidth_eq]

/-- Fields that are 0 above an operand leave its value. -/
theorem toNat_zero_append {w v : Nat} (x : BitVec v) : (0#w ++ x).toNat = x.toNat := by
  simp [BitVec.toNat_append]

/-- A number in a byte's range is the value of its byte (R57). -/
theorem toNat_of_isByte {n : AsmNum} (h : n.isByte = true) : n.value.toNat = (BitVec.ofInt 8 n.value).toNat := by
  simp only [AsmNum.isByte, Bool.and_eq_true, decide_eq_true_eq] at h
  rw [BitVec.toNat_ofInt]
  omega

/-- `X & 0xFFFF` is the value of the sample's raw bits (R57). -/
theorem sampleBits_eq (x : AsmNum) : x.sampleBits = (BitVec.ofInt 16 x.value).toNat :=
  (BitVec.toNat_ofInt (n := 16) x.value).symm

/-- A subsampling in range is the value of its field (R57). -/
theorem code_of_inRange {s : AsmSubs} (h : s.inRange = true) : s.code = (Ref.asmInstr.asmSubs s).toNat := by
  cases s with
  | s420 | s444 => rfl
  | raw n =>
    simp only [AsmSubs.inRange, Bool.and_eq_true, decide_eq_true_eq] at h
    rw [AsmSubs.code, Ref.asmInstr.asmSubs, BitVec.toNat_ofInt]
    omega

/-- The fields of a code form are the operand bits of layout C8 (R50, R57). -/
theorem byteFields_eq {c : AsmNum} (h : c.isByte = true) : c.value.toNat = (0#16 ++ BitVec.ofInt 8 c.value).toNat := by
  rw [toNat_zero_append, toNat_of_isByte h]

/-- The fields of a sample form are the operand bits of layout S16 (R50, R57). -/
theorem sampleFields_eq (x : AsmNum) : x.sampleBits = (0#8 ++ BitVec.ofInt 16 x.value).toNat := by
  rw [toNat_zero_append, sampleBits_eq]

/-- The fields of a pixel form are its three bytes in a row (R50, R57). -/
theorem asmTriple_eq {a b c : AsmNum} (h : (a.isByte && b.isByte && c.isByte) = true) :
    asmTriple a b c = (BitVec.ofInt 8 a.value ++ BitVec.ofInt 8 b.value ++ BitVec.ofInt 8 c.value).toNat := by
  simp only [Bool.and_eq_true] at h
  obtain ⟨⟨ha, hb⟩, hc⟩ := h
  simp only [asmTriple, toNat_of_isByte ha, toNat_of_isByte hb, toNat_of_isByte hc, BitVec.toNat_append,
    Nat.shiftLeft_or_distrib, ← Nat.shiftLeft_add]

/-- The fields of a frame form are the operand bits of layout F (R50, R57). -/
theorem frameFields_eq {d : AsmNum} {s : AsmSubs} (h : (d.isByte && s.inRange) = true) :
    s.code <<< 8 ||| d.value.toNat = (0#14 ++ Ref.asmInstr.asmSubs s ++ BitVec.ofInt 8 d.value).toNat := by
  simp only [Bool.and_eq_true] at h
  obtain ⟨hd, hs⟩ := h
  rw [BitVec.toNat_append, toNat_zero_append, code_of_inRange hs, toNat_of_isByte hd]

/-- The word of a line with its operands in range is the encoder's word of the command it names (R57). -/
theorem word_eq_encode {l : AsmLine} (h : l.wellFormed = true) : l.word = encode (Ref.asmInstr l) := by
  cases l with
  | nop => rfl
  | ulaw2lin c => exact asmWord_eq_append 0x01 (byteFields_eq h)
  | alaw2lin c => exact asmWord_eq_append 0x02 (byteFields_eq h)
  | lin2alaw x => exact asmWord_eq_append 0x03 (sampleFields_eq x)
  | lin2ulaw x => exact asmWord_eq_append 0x04 (sampleFields_eq x)
  | pixRgb2ycc r g b => exact asmWord_eq_append 0x10 (asmTriple_eq h)
  | pixRgb2yccHp r g b => exact asmWord_eq_append 0x11 (asmTriple_eq h)
  | pixYcc2rgb y cb cr => exact asmWord_eq_append 0x12 (asmTriple_eq h)
  | frmRgb2ycc d s => exact asmWord_eq_append 0x20 (frameFields_eq h)
  | frmYcc2rgb d s => exact asmWord_eq_append 0x21 (frameFields_eq h)

/-- Settles O8: the assembler's word is the encoder's, which decodes to its command. -/
theorem assemblerWords : Obligations.AssemblerWords := by
  refine fun l => ⟨fun h => by simp [assemble, h], fun h => ⟨l.word, by simp [assemble, h], ?_⟩⟩
  rw [word_eq_encode h]
  exact decode_encode _

/-! ### Polls -/

/-- A turn of a poll reads its register; the poll stands first again unless the masked value matches (R59). -/
theorem hostAct_pollOp {s : State} {offset : Nat} {r : Reg} (hr : regAt offset = some r) (mask value : Word) :
    hostAct (pollOp s.params offset mask value) s =
      if regRead s r &&& mask = value then .next (readReg offset r s)
      else .next ((readReg offset r s).setHost (pollOp s.params offset mask value :: (readReg offset r s).host)) := by
  simp [hostAct, pollOp, hr]

/-- Settles O13, by whether the masked value matches. -/
theorem pollIsALoopOfReads : Obligations.PollIsALoopOfReads := by
  intro s offset v hrow mask value
  obtain ⟨r, hr, rfl⟩ := regAt_of_mem_readTable hrow
  obtain ⟨hblock, hhost, -, -⟩ := readReg_frame offset r s
  rw [hostAct_pollOp hr]
  by_cases hv : regRead s r &&& mask = value
  · exact ⟨_, if_pos hv, readReg_replies offset r s, hblock, fun _ => hhost, fun hne => absurd hv hne⟩
  · exact ⟨_, if_neg hv, readReg_replies offset r s, hblock, fun heq => absurd heq hv, fun _ => by simp [hhost]⟩

end Sys2Proof.Machine
end

section
/-! Proofs of the statements about the `CMD` write: while BUSY is 1 every word is dropped, while BUSY is 0 every word has
an outcome, and `NOP` is the word 0. -/

namespace Sys2Proof.Machine

/-! ### Dropped and accepted words -/

/-- While BUSY is 1 a word is dropped, whether it decodes or not (40_command.md R62). -/
theorem issueWord_busy (w : Word) {s : State} (hb : s.busy = true) : issueWord w s = .next s.drop := by
  cases hw : decode w with
  | command i => rw [issueWord_command hw, exec_busy i s hb]
  | illegal why => rw [issueWord_illegal hw, issueIllegal, issue_busy s _ hb]

/-- An accepted `CMD` write clears OVR (R61). -/
theorem CmdEffect.ovr_eq_false {w : Word} {s t : State} (h : CmdEffect w s t) (hb : s.busy = false) :
    t.ovr = false := by
  cases h with
  | dropped busy => simp [hb] at busy
  | accepted | result | raised | latched => rfl

/-- Settles O15: a word is dropped before it is decoded, and no effect after acceptance sets OVR. -/
theorem busyDropsEveryWord : Obligations.BusyDropsEveryWord :=
  ⟨fun _ w hb => issueWord_busy w hb, fun _ _ _ hb h => (issueWord_effect h).ovr_eq_false hb⟩

/-! ### Every word has an outcome -/

/-- Issuing a command answers a next state where its effect after acceptance does (R61, R62). -/
theorem issue_next {s : State} {effect : State → Outcome} (h : ∃ t, effect s.accept = .next t) :
    ∃ t, issue s effect = .next t := by
  cases hb : s.busy with
  | true => exact ⟨_, issue_busy s effect hb⟩
  | false => rwa [issue_idle s effect hb]

/-- An immediate command answers a next state. -/
theorem immediate_next (s : State) (w : Word) : ∃ t, immediate s w = .next t := issue_next ⟨_, rfl⟩

/-- A frame command answers a next state, whether its check passes or not (43_color_frame.md R91). -/
theorem issueFrame_next (op : FrameOp) (depth : Byte) (subs : BitVec 2) (s : State) :
    ∃ t, issueFrame op depth subs s = .next t := by
  apply issue_next
  cases frameCheck op depth subs s.accept.desc with
  | error code => exact ⟨_, rfl⟩
  | ok j => exact ⟨_, rfl⟩

/-- With admissible parameter tuples PIX_RGB2YCC_HP is an immediate command (42_color_pixel.md R79, R83). -/
theorem execPixRgb2yccHp_eq_immediate {s : State} (hp : paramsAdmissible s.params = true) (r g b : Byte) :
    execPixRgb2yccHp r g b s = immediate s (packYcc (rgbToYcc444 s.params ⟨r, g, b⟩)) := by
  simp [execPixRgb2yccHp, hp]

/-- With admissible parameter tuples every command answers a next state (R65). -/
theorem exec_next (i : Instr) {s : State} (hp : paramsAdmissible s.params = true) : ∃ t, exec i s = .next t := by
  cases i with
  | nop => exact issue_next ⟨_, rfl⟩
  | pixRgb2yccHp r g b =>
    simp only [exec, execPixRgb2yccHp_eq_immediate hp]
    exact immediate_next s _
  | frmRgb2ycc depth subs => exact issueFrame_next .rgb2ycc depth subs s
  | frmYcc2rgb depth subs => exact issueFrame_next .ycc2rgb depth subs s
  | _ => exact immediate_next s _

/-- With admissible parameter tuples a `CMD` write of any word answers a next state (R61, R65). -/
theorem issueWord_next (w : Word) {s : State} (hp : paramsAdmissible s.params = true) :
    ∃ t, issueWord w s = .next t := by
  cases hw : decode w with
  | command i =>
    rw [issueWord_command hw]
    exact exec_next i hp
  | illegal why =>
    rw [issueWord_illegal hw]
    exact issue_next ⟨_, rfl⟩

/-- An accepted command other than a frame command leaves ERR 0 (R65). -/
theorem err_of_exec_immediate {i : Instr} {s t : State} (hi : isFrame i = false) (hb : s.busy = false)
    (h : exec i s = .next t) : t.err = .none := by
  obtain ⟨busy, _⟩ | ⟨_, _, rfl | ⟨_, rfl⟩⟩ | ⟨_, hframe, _⟩ := exec_cases h
  · simp [hb] at busy
  · rfl
  · rfl
  · simp [hi] at hframe

/-- Settles O16: every word answers a next state, and a word that decodes is its command. -/
theorem everyWordHasAnOutcome : Obligations.EveryWordHasAnOutcome := by
  intro s w hp
  obtain ⟨t, ht⟩ := issueWord_next w hp
  refine ⟨t, ht, fun i hw hi hb => ?_⟩
  rw [issueWord_command hw] at ht
  exact err_of_exec_immediate hi hb ht

/-! ### NOP -/

/-- A word decodes to a command exactly where it is the command's word (30_encoding.md R52). -/
theorem decode_eq_command_iff {w : Word} {i : Instr} : decode w = .command i ↔ w = encode i := by
  constructor
  · exact fun h => (encode_of_decode h).symm
  · rintro rfl
    exact decode_encode i

/-- Settles O19: NOP is accepted and does no more, or is dropped, and its word is 0. -/
theorem nopResult : Obligations.NopResult := by
  have hword : encode .nop = 0 := rfl
  exact ⟨fun _ hb => exec_nop_idle hb, fun s hb => exec_busy .nop s hb, fun _ => hword ▸ decode_eq_command_iff⟩

end Sys2Proof.Machine
end

section
/-! Proofs of the statements about the compander (41_compander.md). A code is its three fields, masked. A decode is the
middle of the code's cell, and encoding finds the cell that its argument lies in: the transforms are first tied to
the formulas of `Ref`, and the round trips and symmetries then follow from the cells. -/

namespace Sys2Proof.Machine

/-! ### The fields of a code -/

/-- The byte with the fields of R68 and R69: bit 7, the exponent in bits 6:4, the mantissa in bits 3:0. -/
def codeFields (top : Bool) (e : BitVec 3) (m : BitVec 4) : Byte := BitVec.ofBool top ++ e ++ m

@[simp] theorem codeFields_msb (top : Bool) (e : BitVec 3) (m : BitVec 4) : (codeFields top e m).msb = top := by
  cases top <;> exact BitVec.msb_append.trans BitVec.msb_append

@[simp] theorem codeFields_exponent (top : Bool) (e : BitVec 3) (m : BitVec 4) :
    (codeFields top e m).extractLsb' 4 3 = e :=
  (extract_upper _ m 4 3 le_rfl).trans ((extract_lower _ e 0 3 le_rfl).trans BitVec.extractLsb'_eq_self)

@[simp] theorem codeFields_mantissa (top : Bool) (e : BitVec 3) (m : BitVec 4) :
    (codeFields top e m).extractLsb' 0 4 = m :=
  (extract_lower _ m 0 4 le_rfl).trans BitVec.extractLsb'_eq_self

/-- The weights of the fields. -/
theorem codeFields_toNat (top : Bool) (e : BitVec 3) (m : BitVec 4) :
    (codeFields top e m).toNat = 128 * top.toNat + 16 * e.toNat + m.toNat := by
  have happend : (codeFields top e m).toNat = (top.toNat <<< 3 ||| e.toNat) <<< 4 ||| m.toNat :=
    (BitVec.toNat_append _ m).trans (by rw [BitVec.toNat_append, BitVec.toNat_ofBool])
  rw [happend, ← Nat.shiftLeft_add_eq_or_of_lt m.isLt, ← Nat.shiftLeft_add_eq_or_of_lt e.isLt]
  simp only [Nat.shiftLeft_eq]
  ring

/-- Every byte is its fields. -/
theorem eq_codeFields (c : Byte) : c = codeFields c.msb (c.extractLsb' 4 3) (c.extractLsb' 0 4) := by
  apply BitVec.eq_of_toNat_eq
  have hlt := c.isLt
  rw [codeFields_toNat, BitVec.msb_eq_decide, BitVec.extractLsb'_toNat, BitVec.extractLsb'_toNat]
  by_cases h : 128 ≤ c.toNat <;> simp [h, Nat.shiftRight_eq_div_pow] <;> omega

/-- Flipping bit 7 changes the top field only. -/
theorem codeFields_flip (top : Bool) (e : BitVec 3) (m : BitVec 4) :
    codeFields top e m ^^^ 0x80#8 = codeFields (!top) e m := by
  have happend : (BitVec.ofBool top ++ e ++ m) ^^^ (1#1 ++ 0#3 ++ 0#4) =
      (BitVec.ofBool top ^^^ 1#1) ++ (e ^^^ 0#3) ++ (m ^^^ 0#4) := by rw [BitVec.xor_append, BitVec.xor_append]
  refine Eq.trans happend ?_
  rw [BitVec.xor_zero, BitVec.xor_zero]
  cases top <;> rfl

/-- An exponent above a mantissa (R70, R71). -/
theorem exponent_or_mantissa (e : Nat) {m : Nat} (hm : m < 16) : e <<< 4 ||| m = 16 * e + m := by
  rw [← Nat.shiftLeft_add_eq_or_of_lt hm, Nat.shiftLeft_eq, mul_comm]

/-- A sign above an exponent and a mantissa (R70). -/
theorem sign_or_exponent_or_mantissa (s : Nat) {e m : Nat} (he : e < 8) (hm : m < 16) :
    s <<< 7 ||| e <<< 4 ||| m = s <<< 7 + 16 * e + m := by
  rw [Nat.lor_assoc, exponent_or_mantissa e hm, ← Nat.shiftLeft_add_eq_or_of_lt (by omega), Nat.add_assoc]

/-- A shift and a mask cut out a mantissa (R70, R71). -/
theorem shiftRight_and_15 (q k : Nat) : q >>> k &&& 0xF = q / 2 ^ k % 16 := by
  rw [Nat.and_two_pow_sub_one_eq_mod _ 4, Nat.shiftRight_eq_div_pow]

/-- `b[hi:lo]` of a byte is the field of its bits (00_scope.md R7). -/
theorem bits_toNat (b : Byte) (hi lo : Nat) : bits b.toNat hi lo = (b.extractLsb' lo (hi - lo + 1)).toNat := by
  rw [bits, BitVec.extractLsb'_toNat, Nat.shiftRight_eq_div_pow]

/-- The sign test of R68 and R69 reads the most significant bit. -/
theorem bits_top_eq_one (b : Byte) : bits b.toNat 7 7 = 1 ↔ b.msb = true := by
  have hlt := b.isLt
  simp only [bits, BitVec.msb_eq_decide, decide_eq_true_eq]
  omega

/-! ### Cells -/

/-- The middle of a cell of `2 ^ (k + 1)` numbers is `2 ^ k` above its lowest number. -/
theorem cell_middle_eq (k lead : Nat) : (2 * lead + 1) * 2 ^ k = lead * 2 ^ (k + 1) + 2 ^ k := by ring

/-- The middle of a cell is at most `2 ^ k` away from each of its numbers. -/
theorem cell_middle_error {mag k lead : Nat} (h : mag / 2 ^ (k + 1) = lead) :
    (((2 * lead + 1) * 2 ^ k : Nat) - (mag : Int)).natAbs ≤ 2 ^ k := by
  have hdiv := (Nat.div_eq_iff (by positivity)).mp h
  have hmiddle := cell_middle_eq k lead
  have hsize : 2 ^ (k + 1) = 2 * 2 ^ k := by ring
  omega

/-- The lowest number of a cell is as far away from its middle as a number of the cell can be. -/
theorem cell_low_error (k lead : Nat) :
    (((2 * lead + 1) * 2 ^ k : Nat) - ((lead * 2 ^ (k + 1) : Nat) : Int)).natAbs = 2 ^ k := by
  rw [cell_middle_eq, Nat.cast_add, add_sub_cancel_left, Int.natAbs_natCast]

/-- A cell contains its lowest number. -/
theorem cell_low_div (k lead : Nat) : lead * 2 ^ (k + 1) / 2 ^ (k + 1) = lead :=
  Nat.mul_div_cancel _ (by positivity)

/-- A cell contains its middle. -/
theorem cell_middle_div (k lead : Nat) : (2 * lead + 1) * 2 ^ k / 2 ^ (k + 1) = lead := by
  rw [pow_succ, mul_comm, Nat.mul_div_mul_left _ _ (by positivity)]
  omega

/-- A number whose leading five bits are `1` and `m` has its most significant bit above the bits cut off. -/
theorem log2_of_lead {mag k : Nat} {m : BitVec 4} (h : mag / 2 ^ k = m.toNat + 16) : Nat.log2 mag = k + 4 := by
  have hm := m.isLt
  have hdiv := (Nat.div_eq_iff (by positivity)).mp h
  have hlow : 16 * 2 ^ k ≤ (m.toNat + 16) * 2 ^ k := Nat.mul_le_mul_right _ (by omega)
  have hhigh : (m.toNat + 16) * 2 ^ k ≤ 31 * 2 ^ k := Nat.mul_le_mul_right _ (by omega)
  have hpos : 0 < 2 ^ k := by positivity
  rw [Nat.log2_eq_iff (by omega)]
  constructor <;> (simp only [pow_succ]; omega)

/-- The leading five bits of a number of at least five bits are `1` and a mantissa. -/
theorem exists_lead {mag : Nat} (h : 16 ≤ mag) :
    ∃ (k : Nat) (m : BitVec 4), mag / 2 ^ k = m.toNat + 16 ∧ Nat.log2 mag = k + 4 := by
  have hfour : 4 ≤ Nat.log2 mag := (Nat.le_log2 (by omega)).mpr h
  obtain ⟨k, hk⟩ := Nat.exists_eq_add_of_le' hfour
  have hbounds := (Nat.log2_eq_iff (by omega)).mp hk
  rw [pow_succ _ (k + 4), pow_add _ k 4] at hbounds
  have hlow : 16 ≤ mag / 2 ^ k := (Nat.le_div_iff_mul_le (by positivity)).mpr (by omega)
  have hhigh : mag / 2 ^ k < 32 := Nat.div_lt_of_lt_mul (by omega)
  refine ⟨k, BitVec.ofNat 4 (mag / 2 ^ k - 16), ?_, hk⟩
  rw [BitVec.toNat_ofNat]
  omega

/-! ### µ-law: the model's formulas are those of the rules -/

/-- The decode of R68. -/
theorem ulawToLinear_eq_ulawSample (code : Byte) : ulawToLinear code = Ref.ulawSample code := by
  have hinv : invByte code.toNat = (~~~code).toNat := by rw [invByte, BitVec.toNat_not]
  simp only [ulawToLinear, Ref.ulawSample, hinv, bits_top_eq_one]
  simp only [bits_toNat, bias, Nat.shiftLeft_eq]
  push_cast
  split <;> ring

/-- The `e`-th µ-law segment ends one below `2 ^ (e + 6)` (R67). -/
theorem ulawSegmentEnds_getElem {e : Nat} (h : e < ulawSegmentEnds.length) : ulawSegmentEnds[e] + 1 = 2 ^ (e + 6) := by
  change e < 8 at h
  interval_cases e <;> rfl

/-- The segment search of R71 finds the segment by the number of bits. -/
theorem findIdx_ulawSegmentEnds {mag e : Nat} (he : e < 8) (hlog : Nat.log2 mag = e + 5) :
    ulawSegmentEnds.findIdx? (fun e => mag ≤ e) = some e := by
  have hne : mag ≠ 0 := by rintro rfl; simp at hlog
  obtain ⟨hlow, hhigh⟩ : 2 ^ (e + 5) ≤ mag ∧ mag < 2 ^ (e + 6) := (Nat.log2_eq_iff hne).mp hlog
  rw [List.findIdx?_eq_some_iff_getElem]
  refine ⟨he, ?_, fun j hj => ?_⟩
  · have hend := ulawSegmentEnds_getElem (e := e) he
    rw [decide_eq_true_eq]
    omega
  · have hend := ulawSegmentEnds_getElem (e := j) (hj.trans he)
    have hpow : 2 ^ (j + 6) ≤ 2 ^ (e + 5) := Nat.pow_le_pow_right (by omega) (by omega)
    rw [decide_eq_true_eq]
    omega

/-- The encode of R71. -/
theorem toNat_linearToULaw (x : Int) : (linearToULaw x).toNat = Ref.ulawCode x := by
  have hmask : (if x < 0 then 127 else 255) < 2 ^ 8 := by split <;> decide
  have hbias : bias >>> 2 = 33 := rfl
  unfold linearToULaw Ref.ulawCode
  dsimp only
  rw [hbias]
  set mag := min x.natAbs 8159 + 33
  by_cases hclip : 8191 < mag
  · have hnone : ulawSegmentEnds.findIdx? (fun e => mag ≤ e) = none := by
      simp [List.findIdx?_eq_none_iff, ulawSegmentEnds]
      omega
    rw [hnone, if_pos hclip, BitVec.toNat_ofNat, Nat.mod_eq_of_lt (Nat.xor_lt_two_pow (by decide) hmask)]
  · obtain ⟨e, he⟩ := Nat.exists_eq_add_of_le' ((Nat.le_log2 (k := 5) (n := mag) (by omega)).mpr (by omega))
    have hlt : e + 5 < 13 := he ▸ (Nat.log2_lt (by omega)).mpr (by omega)
    rw [findIdx_ulawSegmentEnds (by omega) he, if_neg hclip, he, BitVec.toNat_ofNat]
    dsimp only
    rw [shiftRight_and_15, exponent_or_mantissa e (Nat.mod_lt _ (by decide)),
      Nat.mod_eq_of_lt (Nat.xor_lt_two_pow (by omega) hmask)]
    rfl

/-! ### µ-law: codes and cells -/

/-- The µ-law code with a sign and the exponent and mantissa of its cell (R68: a code holds its fields inverted). -/
def ulawCodeOf (neg : Bool) (e : BitVec 3) (m : BitVec 4) : Byte := ~~~codeFields neg e m

/-- A quarter of the magnitude of a µ-law code's sample: the middle of its cell, less 33. -/
def ulawQuarter (e : BitVec 3) (m : BitVec 4) : Nat := (2 * (m.toNat + 16) + 1) * 2 ^ e.toNat - 33

/-- The exponent and the mantissa of the µ-law cell that contains `x`, whatever its sign. -/
def InULawCell (x : Int) (e : BitVec 3) (m : BitVec 4) : Prop := (x.natAbs + 33) / 2 ^ (e.toNat + 1) = m.toNat + 16

theorem exists_ulawCodeOf (c : Byte) : ∃ neg e m, c = ulawCodeOf neg e m :=
  ⟨_, _, _, by rw [ulawCodeOf, ← eq_codeFields, BitVec.not_not]⟩

@[simp] theorem not_ulawCodeOf_exponent (neg : Bool) (e : BitVec 3) (m : BitVec 4) :
    (~~~ulawCodeOf neg e m).extractLsb' 4 3 = e := by
  rw [ulawCodeOf, BitVec.not_not, codeFields_exponent]

/-- Flipping bit 7 changes the sign only (R72). -/
theorem ulawCodeOf_flip (neg : Bool) (e : BitVec 3) (m : BitVec 4) :
    ulawCodeOf neg e m ^^^ 0x80#8 = ulawCodeOf (!neg) e m := by
  rw [ulawCodeOf, ulawCodeOf, ← codeFields_flip, BitVec.not_xor_left]

/-- The value of a code: its magnitude bits are inverted by the mask that also places the sign (R71). -/
theorem ulawCodeOf_toNat (neg : Bool) (e : BitVec 3) (m : BitVec 4) :
    (ulawCodeOf neg e m).toNat = (16 * e.toNat + m.toNat) ^^^ (if neg then 127 else 255) := by
  have hmask : ulawCodeOf neg e m = codeFields false e m ^^^ (if neg then 127#8 else 255#8) := by
    cases neg with
    | false => exact BitVec.xor_allOnes.symm
    | true => rw [← Bool.not_false, ← ulawCodeOf_flip, ulawCodeOf, ← BitVec.xor_allOnes, BitVec.xor_assoc]; rfl
  rw [hmask, BitVec.toNat_xor, codeFields_toNat]
  cases neg <;> simp

/-- No µ-law cell has its middle below 33, so that the subtraction in `ulawQuarter` is exact. -/
theorem middle_ge_of_lead (e : BitVec 3) (m : BitVec 4) : 33 ≤ (2 * (m.toNat + 16) + 1) * 2 ^ e.toNat :=
  le_mul_of_le_of_one_le (by omega) Nat.one_le_two_pow

/-- The sample of a code is 4 times its cell's middle, with the code's sign (R68, R72). -/
theorem ulawToLinear_ulawCodeOf (neg : Bool) (e : BitVec 3) (m : BitVec 4) :
    ulawToLinear (ulawCodeOf neg e m) = if neg then -(4 * ulawQuarter e m : Int) else 4 * ulawQuarter e m := by
  have hge := middle_ge_of_lead e m
  have hquarter : (ulawQuarter e m : Int) = (2 * (m.toNat + 16) + 1) * 2 ^ e.toNat - 33 := by
    rw [ulawQuarter, Nat.cast_sub hge]
    push_cast
    ring
  simp only [ulawToLinear_eq_ulawSample, Ref.ulawSample, ulawCodeOf, BitVec.not_not, codeFields_msb,
    codeFields_exponent, codeFields_mantissa, hquarter]
  split <;> ring

theorem natAbs_ulawToLinear (neg : Bool) (e : BitVec 3) (m : BitVec 4) :
    (ulawToLinear (ulawCodeOf neg e m)).natAbs = 4 * ulawQuarter e m := by
  rw [ulawToLinear_ulawCodeOf]
  split <;> omega

theorem ulawQuarter_le (e : BitVec 3) (m : BitVec 4) : ulawQuarter e m ≤ 8031 := by
  have hpow : 2 ^ e.toNat ≤ 2 ^ 7 := Nat.pow_le_pow_right (by decide) (by omega)
  have hmul : (2 * (m.toNat + 16) + 1) * 2 ^ e.toNat ≤ 63 * 2 ^ 7 := Nat.mul_le_mul (by omega) hpow
  rw [ulawQuarter]
  omega

/-- The bounds of R68. -/
theorem ulawToLinear_range (c : Byte) : -32124 ≤ ulawToLinear c ∧ ulawToLinear c ≤ 32124 := by
  obtain ⟨neg, e, m, rfl⟩ := exists_ulawCodeOf c
  have hle := ulawQuarter_le e m
  have habs := natAbs_ulawToLinear neg e m
  omega

/-- Every argument up to 8158 lies in a cell. -/
theorem exists_inULawCell {x : Int} (h : x.natAbs ≤ 8158) : ∃ e m, InULawCell x e m := by
  obtain ⟨k, m, hm, hlog⟩ := exists_lead (mag := x.natAbs + 33) (by omega)
  have hlow := (Nat.le_log2 (n := x.natAbs + 33) (k := 5) (by omega)).mpr (by omega)
  have hhigh := (Nat.log2_lt (n := x.natAbs + 33) (k := 13) (by omega)).mpr (by omega)
  refine ⟨BitVec.ofNat 3 (k - 1), m, ?_⟩
  have hk : (BitVec.ofNat 3 (k - 1)).toNat + 1 = k := by rw [BitVec.toNat_ofNat]; omega
  rw [InULawCell, hk, hm]

/-- The cells end below the clip of R71. -/
theorem InULawCell.natAbs_le {x : Int} {e : BitVec 3} {m : BitVec 4} (h : InULawCell x e m) : x.natAbs ≤ 8158 := by
  have hpow : 2 ^ (e.toNat + 1) ≤ 2 ^ 8 := Nat.pow_le_pow_right (by decide) (by omega)
  have hmul : (m.toNat + 16) * 2 ^ (e.toNat + 1) ≤ 31 * 2 ^ 8 := Nat.mul_le_mul (by omega) hpow
  have hdiv := (Nat.div_eq_iff (by positivity)).mp h
  omega

/-- The code of an argument is that of its cell, with its sign (R71). -/
theorem InULawCell.linearToULaw_eq {x : Int} {e : BitVec 3} {m : BitVec 4} (h : InULawCell x e m) :
    linearToULaw x = ulawCodeOf (decide (x < 0)) e m := by
  apply BitVec.eq_of_toNat_eq
  have hle := h.natAbs_le
  have hlog : Nat.log2 (x.natAbs + 33) - 4 = e.toNat + 1 := by rw [log2_of_lead h, Nat.add_sub_cancel]
  have hseg : Nat.log2 (x.natAbs + 33) - 5 = e.toNat := by omega
  have hmin : min x.natAbs 8159 = x.natAbs := by omega
  rw [toNat_linearToULaw, ulawCodeOf_toNat]
  simp only [Ref.ulawCode, hmin, hlog, hseg, show (x.natAbs + 33) / 2 ^ (e.toNat + 1) = m.toNat + 16 from h]
  rw [if_neg (by omega), Nat.add_mod_right, Nat.mod_eq_of_lt m.isLt]
  simp

/-- Beyond the last cell the code is that of the last cell, with the argument's sign (R71). -/
theorem linearToULaw_clipped {x : Int} (h : 8159 ≤ x.natAbs) : linearToULaw x = ulawCodeOf (decide (x < 0)) 7 15 := by
  apply BitVec.eq_of_toNat_eq
  rw [toNat_linearToULaw, ulawCodeOf_toNat]
  simp [Ref.ulawCode, h]

/-- The cell of 0 is the first one, and 0 is alone in it. -/
theorem InULawCell.eq_zero_iff {x : Int} {e : BitVec 3} {m : BitVec 4} (h : InULawCell x e m) :
    x = 0 ↔ e = 0 ∧ m = 0 := by
  have hdiv := (Nat.div_eq_iff (by positivity)).mp h
  constructor
  · rintro rfl
    have he : e.toNat = 0 := by
      by_contra hne
      have hmul : 16 * 2 ^ 2 ≤ (m.toNat + 16) * 2 ^ (e.toNat + 1) :=
        Nat.mul_le_mul (by omega) (Nat.pow_le_pow_right (by decide) (by omega))
      omega
    simp only [he, Int.natAbs_zero] at hdiv
    exact ⟨BitVec.eq_of_toNat_eq he, BitVec.eq_of_toNat_eq (by simp; omega)⟩
  · rintro ⟨rfl, rfl⟩
    simp at hdiv
    omega

/-- A quarter of a sample lies in its code's cell, whatever the sign. -/
theorem inULawCell_of_quarter {x : Int} {e : BitVec 3} {m : BitVec 4} (h : x.natAbs = ulawQuarter e m) :
    InULawCell x e m := by
  rw [InULawCell, h, ulawQuarter, Nat.sub_add_cancel (middle_ge_of_lead e m), cell_middle_div]

/-- The first cell alone has the sample 0. -/
theorem ulawQuarter_eq_zero_iff {e : BitVec 3} {m : BitVec 4} : ulawQuarter e m = 0 ↔ e = 0 ∧ m = 0 := by
  rw [← (inULawCell_of_quarter (Int.natAbs_natCast _)).eq_zero_iff, Int.natCast_eq_zero]

theorem ulawToLinear_eq_zero_iff {neg : Bool} {e : BitVec 3} {m : BitVec 4} :
    ulawToLinear (ulawCodeOf neg e m) = 0 ↔ e = 0 ∧ m = 0 := by
  rw [← Int.natAbs_eq_zero, natAbs_ulawToLinear, Nat.mul_eq_zero, ulawQuarter_eq_zero_iff]
  simp

/-- A round trip has the sample 0 for 0 only (R74). -/
theorem InULawCell.roundTrip_eq_zero_iff {x : Int} {e : BitVec 3} {m : BitVec 4} (h : InULawCell x e m) :
    ulawToLinear (linearToULaw x) = 0 ↔ x = 0 := by
  rw [h.linearToULaw_eq, ulawToLinear_eq_zero_iff, h.eq_zero_iff]

/-- A round trip does not change the sign (R74). -/
theorem InULawCell.roundTrip_sign {x : Int} {e : BitVec 3} {m : BitVec 4} (h : InULawCell x e m) (hx : x ≠ 0) :
    (ulawToLinear (linearToULaw x)).sign = x.sign := by
  have hne : ulawQuarter e m ≠ 0 := fun h0 => hx (h.eq_zero_iff.mpr (ulawQuarter_eq_zero_iff.mp h0))
  rw [h.linearToULaw_eq, ulawToLinear_ulawCodeOf]
  obtain hneg | hpos := lt_or_gt_of_ne hx
  · rw [if_pos (decide_eq_true hneg), Int.sign_eq_neg_one_of_neg hneg, Int.sign_eq_neg_one_of_neg (by omega)]
  · rw [if_neg (by simp [hpos.le]), Int.sign_eq_one_of_pos hpos, Int.sign_eq_one_of_pos (by omega)]

/-- The error of a round trip at scale 4 is the distance of the argument from its cell's middle. -/
theorem InULawCell.roundTrip_error {x : Int} {e : BitVec 3} {m : BitVec 4} (h : InULawCell x e m) :
    (((ulawToLinear (linearToULaw x)).natAbs / 4 : Nat) - (x.natAbs : Int)) =
      ((2 * (m.toNat + 16) + 1) * 2 ^ e.toNat : Nat) - ((x.natAbs + 33 : Nat) : Int) := by
  have hge := middle_ge_of_lead e m
  rw [h.linearToULaw_eq, natAbs_ulawToLinear, Nat.mul_div_cancel_left _ (by decide), ulawQuarter]
  omega

/-- A negative argument beyond the cells decodes to the lowest sample, a positive one to the highest (R74). -/
theorem ulaw_roundTrip_clipped {x : Int} (h : 8159 ≤ x.natAbs) : ulawToLinear (linearToULaw x) = x.sign * 32124 := by
  have hlast : ulawQuarter 7 15 = 8031 := rfl
  rw [linearToULaw_clipped h, ulawToLinear_ulawCodeOf, hlast]
  obtain hneg | hpos : x < 0 ∨ 0 < x := by omega
  · rw [if_pos (decide_eq_true hneg), Int.sign_eq_neg_one_of_neg hneg]
    rfl
  · rw [if_neg (by simp [hpos.le]), Int.sign_eq_one_of_pos hpos]
    rfl

/-- No argument is encoded as the negative zero (R71, R76). -/
theorem linearToULaw_ne_negative_zero (x : Int) : linearToULaw x ≠ 0x7F#8 := by
  intro h
  have hzero : ulawToLinear (linearToULaw x) = 0 := by rw [h]; rfl
  obtain hclip | hle := Nat.lt_or_ge 8158 x.natAbs
  · rw [ulaw_roundTrip_clipped hclip] at hzero
    have hx : x = 0 := by simpa using hzero
    simp [hx] at hclip
  · obtain ⟨e, m, hcell⟩ := exists_inULawCell hle
    rw [hcell.roundTrip_eq_zero_iff.mp hzero] at h
    exact absurd h (by decide)

/-- The negative zero has the sample of the positive one, and is re-encoded as it (R72, R76). -/
theorem linearToULaw_negative_zero_quarter : linearToULaw (ulawToLinear 0x7F#8 / 4) = 0xFF#8 := by decide

/-- A quarter of a sample is encoded as its code, but for the negative zero (R76). -/
theorem linearToULaw_quarter {c : Byte} (hc : c ≠ 0x7F#8) : linearToULaw (ulawToLinear c / 4) = c := by
  obtain ⟨neg, e, m, rfl⟩ := exists_ulawCodeOf c
  have hquarter : ulawToLinear (ulawCodeOf neg e m) / 4 =
      if neg then -(ulawQuarter e m : Int) else ulawQuarter e m := by
    rw [ulawToLinear_ulawCodeOf]
    split <;> omega
  have hcell : InULawCell (ulawToLinear (ulawCodeOf neg e m) / 4) e m := by
    apply inULawCell_of_quarter
    rw [hquarter]
    split <;> omega
  rw [hcell.linearToULaw_eq, hquarter]
  congr 1
  cases neg with
  | false => simp
  | true =>
    have hne : ulawQuarter e m ≠ 0 := by
      intro h0
      obtain ⟨rfl, rfl⟩ := ulawQuarter_eq_zero_iff.mp h0
      exact hc rfl
    simp only [if_true, decide_eq_true_eq]
    omega

/-! ### A-law: the model's formulas are those of the rules -/

/-- The decode of R69. -/
theorem alawToLinear_eq_alawSample (code : Byte) : alawToLinear code = Ref.alawSample code := by
  have hmask : code.toNat ^^^ 0x55 = (code ^^^ 0x55#8).toNat := (BitVec.toNat_xor code 0x55#8).symm
  simp only [alawToLinear, Ref.alawSample, hmask, bits_top_eq_one]
  simp only [bits_toNat, Nat.shiftLeft_eq]
  set e := ((code ^^^ 0x55#8).extractLsb' 4 3).toNat
  obtain h0 | h1 | hbig : e = 0 ∨ e = 1 ∨ 2 ≤ e := by omega
  · simp [h0, mul_comm]
  · simp [h1, mul_comm]
  · simp [show e ≠ 0 by omega, show e ≠ 1 by omega, mul_comm]

/-- The scan of R70 finds the most significant set bit. -/
theorem alawScan_eq {mag : Nat} (h : mag ≤ 4095) : alawScan mag = if mag < 32 then 4 else Nat.log2 mag := by
  split
  · next hlow =>
    have hclear (p : Nat) (hp : 5 ≤ p) : mag.testBit p = false :=
      Nat.testBit_lt_two_pow (hlow.trans_le (Nat.pow_le_pow_right (n := 2) (by decide) hp))
    simp [alawScan, hclear]
  · next hhigh =>
    have htop : mag.testBit (Nat.log2 mag) = true := Nat.testBit_log2 (by omega)
    have hclear (p : Nat) (hp : Nat.log2 mag < p) : mag.testBit p = false :=
      Nat.testBit_lt_two_pow ((Nat.log2_lt (by omega)).mp hp)
    have hlow : 5 ≤ Nat.log2 mag := (Nat.le_log2 (by omega)).mpr (by omega)
    have hlt : Nat.log2 mag < 12 := (Nat.log2_lt (by omega)).mpr (by omega)
    generalize Nat.log2 mag = p at *
    interval_cases p <;> simp [alawScan, htop, hclear]

/-- The encode of R70. -/
theorem toNat_linearToALaw (x : Int) : (linearToALaw x).toNat = Ref.alawCode x := by
  unfold linearToALaw Ref.alawCode
  dsimp only
  rw [alawScan_eq (by omega)]
  set mag := min x.natAbs 4095
  have hscan : (if mag < 32 then 4 else Nat.log2 mag) - 4 = if mag < 32 then 0 else Nat.log2 mag - 4 := by
    split <;> rfl
  have hlt : (if mag < 32 then 0 else Nat.log2 mag - 4) < 8 := by
    split
    · decide
    · have := (Nat.log2_lt (n := mag) (k := 12) (by omega)).mpr (by omega)
      omega
  rw [hscan]
  generalize (if mag < 32 then 0 else Nat.log2 mag - 4) = e at *
  have hshift : (if e = 0 then 1 else e) = max e 1 := by split <;> omega
  have hsign : (if 0 ≤ x then 128 else 0) = (if 0 ≤ x then 1 else 0) <<< 7 := by split <;> rfl
  rw [hshift, hsign, shiftRight_and_15, sign_or_exponent_or_mantissa _ hlt (Nat.mod_lt _ (by decide)),
    BitVec.toNat_ofNat]
  refine Nat.mod_eq_of_lt (Nat.xor_lt_two_pow (y := 0x55) (n := 8) ?_ (by decide))
  split <;> omega

/-! ### A-law: codes and cells -/

/-- The A-law code with a sign and the exponent and mantissa of its cell (R67, R69: a code holds its fields masked). -/
def alawCodeOf (nonneg : Bool) (e : BitVec 3) (m : BitVec 4) : Byte := codeFields nonneg e m ^^^ 0x55#8

/-- The bits of an A-law cell's numbers above those that encoding cuts off: the first segment has no leading
1. -/
def alawLead (e : BitVec 3) (m : BitVec 4) : Nat := if e = 0 then m.toNat else m.toNat + 16

/-- An eighth of the magnitude of an A-law code's sample: the middle of its cell. -/
def alawEighth (e : BitVec 3) (m : BitVec 4) : Nat := (2 * alawLead e m + 1) * 2 ^ (e.toNat - 1)

/-- The exponent and the mantissa of the A-law cell that contains `x`, whatever its sign. The first two segments have
cells of one size. -/
def InALawCell (x : Int) (e : BitVec 3) (m : BitVec 4) : Prop := x.natAbs / 2 ^ (e.toNat - 1 + 1) = alawLead e m

theorem exists_alawCodeOf (c : Byte) : ∃ nonneg e m, c = alawCodeOf nonneg e m :=
  ⟨_, _, _, by rw [alawCodeOf, ← eq_codeFields (c ^^^ 0x55#8), BitVec.xor_assoc, BitVec.xor_self, BitVec.xor_zero]⟩

theorem alawCodeOf_unmasked (nonneg : Bool) (e : BitVec 3) (m : BitVec 4) :
    alawCodeOf nonneg e m ^^^ 0x55#8 = codeFields nonneg e m := by
  rw [alawCodeOf, BitVec.xor_assoc, BitVec.xor_self, BitVec.xor_zero]

/-- Flipping bit 7 changes the sign only (R73). -/
theorem alawCodeOf_flip (nonneg : Bool) (e : BitVec 3) (m : BitVec 4) :
    alawCodeOf nonneg e m ^^^ 0x80#8 = alawCodeOf (!nonneg) e m := by
  rw [alawCodeOf, alawCodeOf, ← codeFields_flip, BitVec.xor_assoc, BitVec.xor_assoc, BitVec.xor_comm 0x55#8]

theorem alawCodeOf_toNat (nonneg : Bool) (e : BitVec 3) (m : BitVec 4) :
    (alawCodeOf nonneg e m).toNat = ((if nonneg then 128 else 0) + 16 * e.toNat + m.toNat) ^^^ 85 := by
  rw [alawCodeOf, BitVec.toNat_xor, codeFields_toNat]
  cases nonneg <;> rfl

/-- The sample of a code is 8 times its cell's middle, with the code's sign (R69, R73). -/
theorem alawToLinear_alawCodeOf (nonneg : Bool) (e : BitVec 3) (m : BitVec 4) :
    alawToLinear (alawCodeOf nonneg e m) = if nonneg then 8 * (alawEighth e m : Int) else -(8 * alawEighth e m) := by
  have hsegment : (if e.toNat = 0 then 16 * (m.toNat : Int) + 8 else (16 * m.toNat + 264) * 2 ^ (e.toNat - 1)) =
      8 * (alawEighth e m : Int) := by
    by_cases h0 : e = 0
    · subst h0
      simp [alawEighth, alawLead]
      ring
    · have hne : e.toNat ≠ 0 := fun h => h0 (BitVec.eq_of_toNat_eq h)
      rw [if_neg hne, alawEighth, alawLead, if_neg h0]
      push_cast
      ring
  simp only [alawToLinear_eq_alawSample, Ref.alawSample, alawCodeOf_unmasked, codeFields_msb, codeFields_exponent,
    codeFields_mantissa, hsegment]

theorem natAbs_alawToLinear (nonneg : Bool) (e : BitVec 3) (m : BitVec 4) :
    (alawToLinear (alawCodeOf nonneg e m)).natAbs = 8 * alawEighth e m := by
  rw [alawToLinear_alawCodeOf]
  split <;> omega

theorem alawLead_le (e : BitVec 3) (m : BitVec 4) : alawLead e m ≤ 31 := by
  rw [alawLead]
  split <;> omega

theorem alawEighth_range (e : BitVec 3) (m : BitVec 4) : 1 ≤ alawEighth e m ∧ alawEighth e m ≤ 4032 := by
  have hlead := alawLead_le e m
  have hpow : 2 ^ (e.toNat - 1) ≤ 2 ^ 6 := Nat.pow_le_pow_right (by decide) (by omega)
  exact ⟨Nat.mul_pos (by omega) (by positivity), Nat.mul_le_mul (by omega : _ ≤ 63) hpow⟩

/-- The bounds of R69. -/
theorem natAbs_alawToLinear_range (c : Byte) : 8 ≤ (alawToLinear c).natAbs ∧ (alawToLinear c).natAbs ≤ 32256 := by
  obtain ⟨nonneg, e, m, rfl⟩ := exists_alawCodeOf c
  have hrange := alawEighth_range e m
  rw [natAbs_alawToLinear]
  omega

/-- Every argument up to 4095 lies in a cell. -/
theorem exists_inALawCell {x : Int} (h : x.natAbs ≤ 4095) : ∃ e m, InALawCell x e m := by
  by_cases hsmall : x.natAbs < 32
  · refine ⟨0, BitVec.ofNat 4 (x.natAbs / 2), ?_⟩
    simp [InALawCell, alawLead]
    omega
  · obtain ⟨k, m, hm, hlog⟩ := exists_lead (mag := x.natAbs) (by omega)
    have hlow := (Nat.le_log2 (n := x.natAbs) (k := 5) (by omega)).mpr (by omega)
    have hhigh := (Nat.log2_lt (n := x.natAbs) (k := 12) (by omega)).mpr (by omega)
    have he : (BitVec.ofNat 3 k).toNat = k := by rw [BitVec.toNat_ofNat]; omega
    have hne : BitVec.ofNat 3 k ≠ 0 := by rintro h0; simp [h0] at he; omega
    refine ⟨BitVec.ofNat 3 k, m, ?_⟩
    rw [InALawCell, alawLead, if_neg hne, he, Nat.sub_add_cancel (by omega), hm]

/-- The cells end at the clip of R70. -/
theorem InALawCell.natAbs_le {x : Int} {e : BitVec 3} {m : BitVec 4} (h : InALawCell x e m) : x.natAbs ≤ 4095 := by
  have hpow : 2 ^ (e.toNat - 1 + 1) ≤ 2 ^ 7 := Nat.pow_le_pow_right (by decide) (by omega)
  have hmul : alawLead e m * 2 ^ (e.toNat - 1 + 1) ≤ 31 * 2 ^ 7 := Nat.mul_le_mul (alawLead_le e m) hpow
  have hdiv := (Nat.div_eq_iff (by positivity)).mp h
  omega

/-- The exponent of R70 is that of the argument's cell. -/
theorem InALawCell.exponent_eq {x : Int} {e : BitVec 3} {m : BitVec 4} (h : InALawCell x e m) :
    (if x.natAbs < 32 then 0 else Nat.log2 x.natAbs - 4) = e.toNat := by
  rw [InALawCell, alawLead] at h
  by_cases h0 : e = 0
  · subst h0
    simp at h
    rw [if_pos (by omega)]
    rfl
  · have hpos : 0 < e.toNat := Nat.pos_of_ne_zero fun hz => h0 (BitVec.eq_of_toNat_eq hz)
    rw [if_neg h0, Nat.sub_add_cancel hpos] at h
    have hlog := log2_of_lead h
    have hge : ¬ x.natAbs < 32 := fun hlt => by
      have := (Nat.log2_lt (k := 5) (by rintro hz; simp [hz] at hlog)).mpr hlt
      omega
    rw [if_neg hge, hlog, Nat.add_sub_cancel]

/-- The code of an argument is that of its cell, with its sign (R70). -/
theorem InALawCell.linearToALaw_eq {x : Int} {e : BitVec 3} {m : BitVec 4} (h : InALawCell x e m) :
    linearToALaw x = alawCodeOf (decide (0 ≤ x)) e m := by
  apply BitVec.eq_of_toNat_eq
  have hmin : min x.natAbs 4095 = x.natAbs := by have := h.natAbs_le; omega
  have hshift : max e.toNat 1 = e.toNat - 1 + 1 := by omega
  have hmant : alawLead e m % 16 = m.toNat := by rw [alawLead]; split <;> omega
  rw [toNat_linearToALaw, alawCodeOf_toNat]
  simp only [Ref.alawCode, hmin, h.exponent_eq, hshift,
    show x.natAbs / 2 ^ (e.toNat - 1 + 1) = alawLead e m from h, hmant, decide_eq_true_eq]

/-- Beyond the last cell the code is that of the last cell, with the argument's sign (R70). -/
theorem linearToALaw_clipped {x : Int} (h : 4096 ≤ x.natAbs) :
    linearToALaw x = alawCodeOf (decide (0 ≤ x)) 7 15 := by
  apply BitVec.eq_of_toNat_eq
  have hmin : min x.natAbs 4095 = 4095 := by omega
  have hlog : Nat.log2 4095 = 11 := by decide
  rw [toNat_linearToALaw, alawCodeOf_toNat]
  simp [Ref.alawCode, hmin, hlog]

/-- An eighth of a sample lies in its code's cell, whatever the sign. -/
theorem inALawCell_of_eighth {x : Int} {e : BitVec 3} {m : BitVec 4} (h : x.natAbs = alawEighth e m) :
    InALawCell x e m := by
  rw [InALawCell, h, alawEighth, cell_middle_div]

/-- An eighth of a sample is encoded as its code (R76). -/
theorem linearToALaw_eighth (c : Byte) : linearToALaw (alawToLinear c / 8) = c := by
  obtain ⟨nonneg, e, m, rfl⟩ := exists_alawCodeOf c
  have heighth : alawToLinear (alawCodeOf nonneg e m) / 8 =
      if nonneg then (alawEighth e m : Int) else -alawEighth e m := by
    rw [alawToLinear_alawCodeOf]
    split <;> omega
  have hcell : InALawCell (alawToLinear (alawCodeOf nonneg e m) / 8) e m := by
    apply inALawCell_of_eighth
    rw [heighth]
    split <;> omega
  have hpos := (alawEighth_range e m).1
  rw [hcell.linearToALaw_eq, heighth]
  congr 1
  cases nonneg with
  | true => simp
  | false =>
    simp only [Bool.false_eq_true, if_false, decide_eq_false_iff_not]
    omega

/-- The sample of a round trip is positive where the argument is at least 0 (R75). -/
theorem InALawCell.roundTrip_pos_iff {x : Int} {e : BitVec 3} {m : BitVec 4} (h : InALawCell x e m) :
    0 < alawToLinear (linearToALaw x) ↔ 0 ≤ x := by
  have hpos := (alawEighth_range e m).1
  rw [h.linearToALaw_eq, alawToLinear_alawCodeOf]
  by_cases hx : 0 ≤ x
  · rw [if_pos (decide_eq_true hx)]
    omega
  · rw [if_neg (by simpa using hx)]
    omega

/-- A round trip at scale 8 gives the middle of the argument's cell (R75). -/
theorem InALawCell.roundTrip_eighth {x : Int} {e : BitVec 3} {m : BitVec 4} (h : InALawCell x e m) :
    (alawToLinear (linearToALaw x)).natAbs / 8 = (2 * alawLead e m + 1) * 2 ^ (e.toNat - 1) := by
  rw [h.linearToALaw_eq, natAbs_alawToLinear, Nat.mul_div_cancel_left _ (by decide), alawEighth]

/-- An argument beyond the cells decodes to the outermost sample of its sign (R75). -/
theorem alaw_roundTrip_clipped {x : Int} (h : 4096 ≤ x.natAbs) :
    alawToLinear (linearToALaw x) = if 0 ≤ x then 32256 else -32256 := by
  have hlast : alawEighth 7 15 = 4032 := rfl
  rw [linearToALaw_clipped h, alawToLinear_alawCodeOf, hlast]
  simp

/-! ### The commands -/

/-- Bits above an operand that are 0 leave its layout (R50). -/
theorem setWidth_eq_zero_append {v : Nat} (w : Nat) (x : BitVec v) : x.setWidth (w + v) = 0#w ++ x := by
  apply BitVec.eq_of_toNat_eq
  rw [toNat_zero_append, BitVec.toNat_setWidth]
  exact Nat.mod_eq_of_lt (x.isLt.trans_le (Nat.pow_le_pow_right (by decide) (Nat.le_add_left v w)))

/-- A code's byte below an opcode is the word of layout C8 (R50). -/
theorem word_byte (opcode : BitVec 8) (code : Byte) : Ref.word opcode (code.setWidth 24) = opcode ++ (0#16 ++ code) :=
  congrArg (opcode ++ ·) (setWidth_eq_zero_append 16 code)

/-- A sample's bits below an opcode are the word of layout S16 (R50). -/
theorem word_half (opcode : BitVec 8) (sample : Half) :
    Ref.word opcode (sample.setWidth 24) = opcode ++ (0#8 ++ sample) :=
  congrArg (opcode ++ ·) (setWidth_eq_zero_append 8 sample)

/-- `zext_32` of a code by its value (R50). -/
theorem zext32_eq_ofNat (c : Byte) : zext32 c = BitVec.ofNat 32 c.toNat := (BitVec.ofNat_toNat 32 c).symm

/-- Settles O20: the model's sample is that of R68. -/
theorem ulaw2linResult : Obligations.Ulaw2linResult := by
  intro code s
  refine ⟨word_byte 0x01 code ▸ decode_encode (.ulaw2lin code), fun hb => ?_, ?_⟩
  · rw [← ulawToLinear_eq_ulawSample]
    exact immediate_idle s _ hb
  · rw [← ulawToLinear_eq_ulawSample]
    exact ulawToLinear_range code

/-- Settles O21: the model's sample is that of R69. -/
theorem alaw2linResult : Obligations.Alaw2linResult := by
  intro code s
  refine ⟨word_byte 0x02 code ▸ decode_encode (.alaw2lin code), fun hb => ?_, ?_⟩
  · rw [← alawToLinear_eq_alawSample]
    exact immediate_idle s _ hb
  · rw [← alawToLinear_eq_alawSample]
    exact natAbs_alawToLinear_range code

/-- Settles O22: the model's code is that of R70. -/
theorem lin2alawResult : Obligations.Lin2alawResult := by
  intro sample s
  rw [← toNat_linearToALaw]
  refine ⟨word_half 0x03 sample ▸ decode_encode (.lin2alaw sample), fun hb => ?_, BitVec.isLt _⟩
  rw [← zext32_eq_ofNat]
  exact immediate_idle s _ hb

/-- Settles O23: the model's code is that of R71. -/
theorem lin2ulawResult : Obligations.Lin2ulawResult := by
  intro sample s
  rw [← toNat_linearToULaw]
  refine ⟨word_half 0x04 sample ▸ decode_encode (.lin2ulaw sample), fun hb => ?_, BitVec.isLt _, fun h => ?_⟩
  · rw [← zext32_eq_ofNat]
    exact immediate_idle s _ hb
  · exact linearToULaw_ne_negative_zero _ (BitVec.eq_of_toNat_eq h)

/-! ### Round trips and symmetry -/

/-- Settles O26: the error is the distance from a cell's middle, and it is largest at a cell's lower end. -/
theorem ulawRoundTripBound : Obligations.UlawRoundTripBound := by
  refine ⟨fun x _ _ => ⟨fun hx => ?_, ulaw_roundTrip_clipped⟩, fun e he => ?_⟩
  · obtain ⟨e, m, hcell⟩ := exists_inULawCell hx
    refine ⟨hcell.roundTrip_eq_zero_iff, hcell.roundTrip_sign, ?_⟩
    rw [hcell.roundTrip_error, hcell.linearToULaw_eq, not_ulawCodeOf_exponent]
    exact cell_middle_error hcell
  · have hexponent : (BitVec.ofNat 3 e).toNat = e := by rw [BitVec.toNat_ofNat]; omega
    have hpos : 0 < 2 ^ e := by positivity
    have hlow : ((17 * 2 ^ (e + 1) - 33 : Nat) : Int).natAbs + 33 = 17 * 2 ^ (e + 1) := by
      rw [pow_succ]
      omega
    have hcell : InULawCell (17 * 2 ^ (e + 1) - 33 : Nat) (BitVec.ofNat 3 e) 1 := by
      rw [InULawCell, hlow, hexponent, cell_low_div]
      rfl
    refine ⟨_, hcell.natAbs_le, ?_, ?_⟩
    · rw [hcell.linearToULaw_eq, not_ulawCodeOf_exponent, hexponent]
    · rw [hcell.roundTrip_error, hlow, hexponent]
      exact cell_low_error e 17

/-- Settles O27: the error is the distance from a cell's middle, and it is largest at a cell's lower end. -/
theorem alawRoundTripBound : Obligations.AlawRoundTripBound := by
  refine ⟨fun x _ _ => ⟨fun hx => ?_, alaw_roundTrip_clipped⟩, fun e he => ?_⟩
  · obtain ⟨e, m, hcell⟩ := exists_inALawCell hx
    refine ⟨hcell.roundTrip_pos_iff, ?_⟩
    rw [hcell.roundTrip_eighth, hcell.linearToALaw_eq, alawCodeOf_unmasked, codeFields_exponent]
    exact cell_middle_error hcell
  · have hexponent : (BitVec.ofNat 3 e).toNat = e := by rw [BitVec.toNat_ofNat]; omega
    have hcell : InALawCell (alawLead (BitVec.ofNat 3 e) 0 * 2 ^ (e - 1 + 1) : Nat) (BitVec.ofNat 3 e) 0 := by
      rw [InALawCell, Int.natAbs_natCast, hexponent, cell_low_div]
    refine ⟨_, hcell.natAbs_le, ?_, ?_⟩
    · rw [hcell.linearToALaw_eq, alawCodeOf_unmasked, codeFields_exponent, hexponent]
    · rw [hcell.roundTrip_eighth, hexponent, Int.natAbs_natCast]
      exact cell_low_error (e - 1) _

/-- Settles O28: an exactly scaled sample is the middle of its code's cell. -/
theorem reencodingGivesTheCodeBack : Obligations.ReencodingGivesTheCodeBack :=
  ⟨linearToALaw_eighth, fun _ => linearToULaw_quarter, linearToULaw_negative_zero_quarter,
    fun x _ _ => linearToULaw_ne_negative_zero x⟩

/-- Settles O24: a code is its sign and its cell, and re-encoding tells the codes apart, but for the two zeros. -/
theorem ulawDecodingSymmetry : Obligations.UlawDecodingSymmetry := by
  have hreencoded := linearToULaw_negative_zero_quarter
  refine ⟨fun c => ⟨?_, ?_, ?_⟩, rfl, rfl, fun c d h => ?_⟩
  · obtain ⟨neg, e, m, rfl⟩ := exists_ulawCodeOf c
    rw [ulawCodeOf_flip, ulawToLinear_ulawCodeOf, ulawToLinear_ulawCodeOf]
    cases neg <;> simp
  · obtain ⟨neg, e, m, rfl⟩ := exists_ulawCodeOf c
    have := natAbs_ulawToLinear neg e m
    omega
  · have := ulawToLinear_range c
    omega
  · by_cases hc : c = 0x7F#8 <;> by_cases hd : d = 0x7F#8
    · exact .inl (hc.trans hd.symm)
    · exact .inr (.inr ⟨hc, by rw [← linearToULaw_quarter hd, ← h, hc, hreencoded]⟩)
    · exact .inr (.inl ⟨by rw [← linearToULaw_quarter hc, h, hd, hreencoded], hd⟩)
    · exact .inl (by rw [← linearToULaw_quarter hc, h, linearToULaw_quarter hd])

/-- Settles O25: a code is its sign and its cell, and re-encoding tells the codes apart. -/
theorem alawDecodingSymmetry : Obligations.AlawDecodingSymmetry := by
  refine ⟨fun c => ⟨?_, ?_, natAbs_alawToLinear_range c⟩, fun c d h => ?_⟩
  · obtain ⟨nonneg, e, m, rfl⟩ := exists_alawCodeOf c
    rw [alawCodeOf_flip, alawToLinear_alawCodeOf, alawToLinear_alawCodeOf]
    cases nonneg <;> simp
  · obtain ⟨nonneg, e, m, rfl⟩ := exists_alawCodeOf c
    have := natAbs_alawToLinear nonneg e m
    omega
  · rw [← linearToALaw_eighth c, h, linearToALaw_eighth]

end Sys2Proof.Machine
end

section
/-! Proofs of the statements about the pixel datapath (42_color_pixel.md). The model's bytes are first tied to the
formulas of `Ref`; the commands follow by rewriting, and the round trip by adding up what the divisions cut off. -/

namespace Sys2Proof.Machine

/-! ### Packed pixels -/

/-- A packed word by the values of its three bytes (30_encoding.md R50). -/
theorem pack3_eq_packed (a b c : Byte) : pack3 a b c = Ref.packed a.toNat b.toNat c.toNat := by
  have hvalue : Ref.packed a.toNat b.toNat c.toNat = BitVec.ofNat 32 (a.toNat * 65536 + b.toNat * 256 + c.toNat) := by
    rw [Ref.packed, ← BitVec.ofInt_natCast]
    norm_cast
  rw [hvalue, ← pack3_toNat, BitVec.ofNat_toNat, BitVec.setWidth_eq]

theorem packYcc_eq_packed (p : Ycc) : packYcc p = Ref.packed p.y.toNat p.cb.toNat p.cr.toNat := pack3_eq_packed _ _ _

theorem packRgb_eq_packed (p : Rgb) : packRgb p = Ref.packed p.r.toNat p.g.toNat p.b.toNat := pack3_eq_packed _ _ _

/-! ### The 8-bit forward functions (R78) -/

/-- The division of R78 for luma cuts off less than 1. -/
theorem luma601_bounds (r g b : Byte) :
    256 * (Ref.luma601 r g b - 16) ≤ 66 * r.toNat + 129 * g.toNat + 25 * b.toNat + 128 ∧
    66 * r.toNat + 129 * g.toNat + 25 * b.toNat + 128 < 256 * (Ref.luma601 r g b - 16) + 256 := by
  unfold Ref.luma601
  omega

theorem cb601_bounds (r g b : Byte) :
    256 * (Ref.cb601 r g b - 128) ≤ -38 * r.toNat - 74 * g.toNat + 112 * b.toNat + 128 ∧
    -38 * r.toNat - 74 * g.toNat + 112 * b.toNat + 128 < 256 * (Ref.cb601 r g b - 128) + 256 := by
  unfold Ref.cb601
  omega

theorem cr601_bounds (r g b : Byte) :
    256 * (Ref.cr601 r g b - 128) ≤ 112 * r.toNat - 94 * g.toNat - 18 * b.toNat + 128 ∧
    112 * r.toNat - 94 * g.toNat - 18 * b.toNat + 128 < 256 * (Ref.cr601 r g b - 128) + 256 := by
  unfold Ref.cr601
  omega

theorem luma601_range (r g b : Byte) : 16 ≤ Ref.luma601 r g b ∧ Ref.luma601 r g b ≤ 235 := by
  have := luma601_bounds r g b
  omega

theorem cb601_range (r g b : Byte) : 16 ≤ Ref.cb601 r g b ∧ Ref.cb601 r g b ≤ 240 := by
  have := cb601_bounds r g b
  omega

theorem cr601_range (r g b : Byte) : 16 ≤ Ref.cr601 r g b ∧ Ref.cr601 r g b ≤ 240 := by
  have := cr601_bounds r g b
  omega

theorem y601_eq_ref (p : Rgb) : y601 p = Ref.luma601 p.r p.g p.b := by
  simp only [y601, weigh, asr_8, Ref.luma601]

theorem cb601_eq_ref (p : Rgb) : cb601 p = Ref.cb601 p.r p.g p.b := by
  simp only [cb601, weigh, asr_8, Ref.cb601, Int.neg_mul, ← Int.sub_eq_add_neg]

theorem cr601_eq_ref (p : Rgb) : cr601 p = Ref.cr601 p.r p.g p.b := by
  simp only [cr601, weigh, asr_8, Ref.cr601, Int.neg_mul, ← Int.sub_eq_add_neg]

/-- The bytes of a forward conversion are the values of R78. -/
@[simp] theorem rgbToYcc601_y (p : Rgb) : ((rgbToYcc601 p).y.toNat : Int) = Ref.luma601 p.r p.g p.b := by
  have := luma601_range p.r p.g p.b
  rw [rgbToYcc601, y601_eq_ref, toByte_toNat (by omega) (by omega)]

@[simp] theorem rgbToYcc601_cb (p : Rgb) : ((rgbToYcc601 p).cb.toNat : Int) = Ref.cb601 p.r p.g p.b := by
  have := cb601_range p.r p.g p.b
  rw [rgbToYcc601, cb601_eq_ref, toByte_toNat (by omega) (by omega)]

@[simp] theorem rgbToYcc601_cr (p : Rgb) : ((rgbToYcc601 p).cr.toNat : Int) = Ref.cr601 p.r p.g p.b := by
  have := cr601_range p.r p.g p.b
  rw [rgbToYcc601, cr601_eq_ref, toByte_toNat (by omega) (by omega)]

/-- Settles O29: the model's bytes are the values of R78. -/
theorem pixRgb2yccResult : Obligations.PixRgb2yccResult := by
  intro r g b s
  obtain ⟨hy, hy'⟩ := luma601_range r g b
  obtain ⟨hcb, hcb'⟩ := cb601_range r g b
  obtain ⟨hcr, hcr'⟩ := cr601_range r g b
  refine ⟨decode_encode (.pixRgb2ycc r g b), fun hb => ?_, hy, hy', hcb, hcb', hcr, hcr'⟩
  have hword : packYcc (rgbToYcc601 ⟨r, g, b⟩) =
      Ref.packed (Ref.luma601 r g b) (Ref.cb601 r g b) (Ref.cr601 r g b) := by
    rw [packYcc_eq_packed, rgbToYcc601_y, rgbToYcc601_cb, rgbToYcc601_cr]
  rw [← hword]
  exact immediate_idle s _ hb

/-! ### The 4:4:4 functions (R79) -/

theorem luma444_range (r g b : Byte) : 16 ≤ Ref.luma444 r g b ∧ Ref.luma444 r g b ≤ 235 := by
  unfold Ref.luma444
  omega

theorem y444_eq_ref (p : Rgb) : y444 p = Ref.luma444 p.r p.g p.b := by
  rw [y444, truncDiv_of_nonneg _ (by unfold weigh; omega), weigh, Ref.luma444]

/-- With an admissible tuple the numerator is not negative, so that the model's division is the floor (R81). -/
theorem chroma444_eq_ref {t : Chroma444} (h : chromaAdmissible t = true) (p : Rgb) :
    chroma444 t p = Ref.chroma444 t p.r p.g p.b := truncDiv_of_nonneg _ (chroma444_numerator h p)

theorem ref_chroma444_range {t : Chroma444} (h : chromaAdmissible t = true) (r g b : Byte) :
    0 ≤ Ref.chroma444 t r g b ∧ Ref.chroma444 t r g b ≤ 255 :=
  chroma444_eq_ref h ⟨r, g, b⟩ ▸ chroma444_range h ⟨r, g, b⟩

theorem toByte_chroma444 {t : Chroma444} (h : chromaAdmissible t = true) (p : Rgb) :
    ((toByte (chroma444 t p)).toNat : Int) = Ref.chroma444 t p.r p.g p.b := by
  obtain ⟨h0, h255⟩ := chroma444_range h p
  rw [toByte_toNat h0 h255, chroma444_eq_ref h]

/-- The bytes of a 4:4:4 conversion are the values of R79. -/
@[simp] theorem rgbToYcc444_y (q : Params) (p : Rgb) :
    ((rgbToYcc444 q p).y.toNat : Int) = Ref.luma444 p.r p.g p.b := by
  have := luma444_range p.r p.g p.b
  rw [rgbToYcc444, y444_eq_ref, toByte_toNat (by omega) (by omega)]

theorem rgbToYcc444_cb {q : Params} (h : chromaAdmissible q.cb444 = true) (p : Rgb) :
    ((rgbToYcc444 q p).cb.toNat : Int) = Ref.chroma444 q.cb444 p.r p.g p.b := toByte_chroma444 h p

theorem rgbToYcc444_cr {q : Params} (h : chromaAdmissible q.cr444 = true) (p : Rgb) :
    ((rgbToYcc444 q p).cr.toNat : Int) = Ref.chroma444 q.cr444 p.r p.g p.b := toByte_chroma444 h p

theorem paramsAdmissible_iff {q : Params} :
    paramsAdmissible q = true ↔ chromaAdmissible q.cb444 = true ∧ chromaAdmissible q.cr444 = true :=
  Bool.and_eq_true_iff

/-- Settles O30: with admissible tuples the model's bytes are the values of R79. -/
theorem pixRgb2yccHpResult : Obligations.PixRgb2yccHpResult := by
  intro r g b s
  refine ⟨decode_encode (.pixRgb2yccHp r g b), fun hb hp => ?_⟩
  obtain ⟨hcb, hcr⟩ := paramsAdmissible_iff.mp hp
  obtain ⟨hy0, hy235⟩ := luma444_range r g b
  obtain ⟨hcb0, hcb255⟩ := ref_chroma444_range hcb r g b
  refine ⟨?_, hy0, hy235, hcb0, hcb255, ref_chroma444_range hcr r g b⟩
  have hword : packYcc (rgbToYcc444 s.params ⟨r, g, b⟩) = Ref.packed (Ref.luma444 r g b)
      (Ref.chroma444 s.params.cb444 r g b) (Ref.chroma444 s.params.cr444 r g b) := by
    rw [packYcc_eq_packed, rgbToYcc444_y, rgbToYcc444_cb hcb, rgbToYcc444_cr hcr]
  rw [← hword]
  exact (execPixRgb2yccHp_eq_immediate hp r g b).trans (immediate_idle s _ hb)

/-! ### Admissible tuples (R79) -/

/-- The model's check: it looks at the numerator's least and greatest values only. -/
theorem chromaAdmissible_iff_extremes (t : Chroma444) : chromaAdmissible t = true ↔
    0 < t.d ∧ 0 ≤ t.k + 255 * (min t.r 0 + min t.g 0 + min t.b 0) ∧
    truncDiv (t.k + 255 * (max t.r 0 + max t.g 0 + max t.b 0)) t.d ≤ 255 := by
  simp only [chromaAdmissible, Bool.and_eq_true, decide_eq_true_eq, and_assoc]

/-- The bounds of `weight_bounds` are reached: a channel at 0 or 255 gives each. -/
theorem exists_weight_min (w : Int) : ∃ x : Byte, w * x.toNat = 255 * min w 0 := by
  obtain hneg | hpos := le_total w 0
  · exact ⟨255, by rw [min_eq_left hneg, mul_comm]; rfl⟩
  · exact ⟨0, by simp [hpos]⟩

theorem exists_weight_max (w : Int) : ∃ x : Byte, w * x.toNat = 255 * max w 0 := by
  obtain ⟨x, hx⟩ := exists_weight_min (-w)
  exact ⟨x, by rw [neg_mul] at hx; omega⟩

/-- A pixel whose numerator is the least value the model's check computes. -/
theorem exists_chromaNumerator_min (t : Chroma444) : ∃ r g b : Byte,
    Ref.chromaNumerator t r g b = t.k + 255 * (min t.r 0 + min t.g 0 + min t.b 0) := by
  obtain ⟨r, hr⟩ := exists_weight_min t.r
  obtain ⟨g, hg⟩ := exists_weight_min t.g
  obtain ⟨b, hb⟩ := exists_weight_min t.b
  exact ⟨r, g, b, by rw [Ref.chromaNumerator, hr, hg, hb]; ring⟩

theorem exists_chromaNumerator_max (t : Chroma444) : ∃ r g b : Byte,
    Ref.chromaNumerator t r g b = t.k + 255 * (max t.r 0 + max t.g 0 + max t.b 0) := by
  obtain ⟨r, hr⟩ := exists_weight_max t.r
  obtain ⟨g, hg⟩ := exists_weight_max t.g
  obtain ⟨b, hb⟩ := exists_weight_max t.b
  exact ⟨r, g, b, by rw [Ref.chromaNumerator, hr, hg, hb]; ring⟩

/-- The model's check is the condition of R79 over all pixels. -/
theorem chromaAdmissible_iff (t : Chroma444) : chromaAdmissible t = true ↔
    0 < t.d ∧ ∀ r g b : Byte, 0 ≤ Ref.chromaNumerator t r g b ∧ Ref.chroma444 t r g b ≤ 255 := by
  constructor
  · intro h
    obtain ⟨hd, _⟩ := (chromaAdmissible_iff_extremes t).mp h
    exact ⟨hd, fun r g b => ⟨chroma444_numerator h ⟨r, g, b⟩, (ref_chroma444_range h r g b).2⟩⟩
  · rintro ⟨hd, hall⟩
    obtain ⟨r, g, b, hmin⟩ := exists_chromaNumerator_min t
    obtain ⟨r', g', b', hmax⟩ := exists_chromaNumerator_max t
    obtain ⟨hmin0, _⟩ := hall r g b
    obtain ⟨hmax0, hmax255⟩ := hall r' g' b'
    rw [chromaAdmissible_iff_extremes, ← hmin, ← hmax, truncDiv_of_nonneg _ hmax0]
    exact ⟨hd, hmin0, hmax255⟩

/-- With an inadmissible tuple PIX_RGB2YCC_HP is refused while BUSY is 0 (R79; notes/assumptions/17.md). -/
theorem execPixRgb2yccHp_refused {s : State} (hb : s.busy = false) (hp : paramsAdmissible s.params = false)
    (r g b : Byte) : execPixRgb2yccHp r g b s = .refused .inadmissibleChroma := by
  simp [execPixRgb2yccHp, hb, hp]

/-- Settles O31: two pixels with each channel at 0 or 255 reach the extremes that the model's check looks at. -/
theorem chromaAdmissibility : Obligations.ChromaAdmissibility := by
  obtain ⟨hcb, hcr⟩ := paramsAdmissible_iff.mp default_admissible
  exact ⟨chromaAdmissible_iff, hcb, hcr, fun r g b s hb hbad =>
    execPixRgb2yccHp_refused hb (Bool.and_eq_false_iff.mpr hbad) r g b⟩

/-! ### The inverse function (R80) -/

/-- A value cut to a byte after `clamp8` is the clamped value (R8). -/
theorem toByte_clamp8 (v : Int) : ((toByte (clamp8 v)).toNat : Int) = Ref.clamp v := by
  obtain ⟨h0, h255⟩ := clamp8_range v
  rw [toByte_toNat h0 h255, clamp8, Ref.clamp]
  omega

/-- The bytes of an inverse conversion are the values of R80. -/
@[simp] theorem yccToRgb_r (p : Ycc) : ((yccToRgb p).r.toNat : Int) = Ref.red p.y p.cb p.cr := toByte_clamp8 _

@[simp] theorem yccToRgb_g (p : Ycc) : ((yccToRgb p).g.toNat : Int) = Ref.green p.y p.cb p.cr := toByte_clamp8 _

@[simp] theorem yccToRgb_b (p : Ycc) : ((yccToRgb p).b.toNat : Int) = Ref.blue p.y p.cb p.cr := toByte_clamp8 _

/-- Settles O32: the model's bytes are the values of R80. -/
theorem pixYcc2rgbResult : Obligations.PixYcc2rgbResult := by
  intro y cb cr s
  refine ⟨decode_encode (.pixYcc2rgb y cb cr), fun hb => ?_⟩
  have hword : packRgb (yccToRgb ⟨y, cb, cr⟩) =
      Ref.packed (Ref.red y cb cr) (Ref.green y cb cr) (Ref.blue y cb cr) := by
    rw [packRgb_eq_packed, yccToRgb_r, yccToRgb_g, yccToRgb_b]
  rw [← hword]
  exact immediate_idle s _ hb

/-! ### The round trip (R85) -/

/-- Clamping takes a value no further from a byte. -/
theorem natAbs_clamp_sub_le (v : Int) (x : Byte) : (Ref.clamp v - x.toNat).natAbs ≤ (v - x.toNat).natAbs := by
  unfold Ref.clamp
  omega

/-! Scaled by 65536, a channel comes back as the inverse's weighted sum of the forward numerators, which is the channel's
own value but for small weights of the channels and a constant. A forward division cuts off at most 255 of its numerator,
taken times its weight in the inverse, and the inverse's division cuts off at most 255, taken times 256. -/

theorem roundTrip_red (p : Rgb) : (((yccToRgb (rgbToYcc601 p)).r.toNat : Int) - p.r.toNat).natAbs ≤ 2 := by
  rw [yccToRgb_r, Ref.red, rgbToYcc601_y, rgbToYcc601_cr]
  refine (natAbs_clamp_sub_le _ p.r).trans ?_
  have hy := luma601_bounds p.r p.g p.b
  have hcr := cr601_bounds p.r p.g p.b
  generalize hv : (298 * (Ref.luma601 p.r p.g p.b - 16) + 409 * (Ref.cr601 p.r p.g p.b - 128) + 128) / 256 = v
  have hupper : 65536 * v ≤ 65476 * p.r.toNat - 4 * p.g.toNat + 88 * p.b.toNat + 123264 := by omega
  have hlower : 65476 * p.r.toNat - 4 * p.g.toNat + 88 * p.b.toNat + 123264 ≤ 65536 * v + 255 * (298 + 409 + 256) := by
    omega
  omega

theorem roundTrip_green (p : Rgb) : (((yccToRgb (rgbToYcc601 p)).g.toNat : Int) - p.g.toNat).natAbs ≤ 2 := by
  rw [yccToRgb_g, Ref.green, rgbToYcc601_y, rgbToYcc601_cb, rgbToYcc601_cr]
  refine (natAbs_clamp_sub_le _ p.g).trans ?_
  have hy := luma601_bounds p.r p.g p.b
  have hcb := cb601_bounds p.r p.g p.b
  have hcr := cr601_bounds p.r p.g p.b
  generalize hv : (298 * (Ref.luma601 p.r p.g p.b - 16) - 100 * (Ref.cb601 p.r p.g p.b - 128) -
    208 * (Ref.cr601 p.r p.g p.b - 128) + 128) / 256 = v
  have hupper : 65536 * v ≤ 172 * p.r.toNat + 65394 * p.g.toNat - 6 * p.b.toNat + 31488 + 255 * (100 + 208) := by omega
  have hlower : 172 * p.r.toNat + 65394 * p.g.toNat - 6 * p.b.toNat + 31488 ≤ 65536 * v + 255 * (298 + 256) := by omega
  omega

theorem roundTrip_blue (p : Rgb) : (((yccToRgb (rgbToYcc601 p)).b.toNat : Int) - p.b.toNat).natAbs ≤ 3 := by
  rw [yccToRgb_b, Ref.blue, rgbToYcc601_y, rgbToYcc601_cb]
  refine (natAbs_clamp_sub_le _ p.b).trans ?_
  have hy := luma601_bounds p.r p.g p.b
  have hcb := cb601_bounds p.r p.g p.b
  generalize hv : (298 * (Ref.luma601 p.r p.g p.b - 16) + 516 * (Ref.cb601 p.r p.g p.b - 128) + 128) / 256 = v
  have hupper : 65536 * v ≤ 60 * p.r.toNat + 258 * p.g.toNat + 65242 * p.b.toNat + 136960 := by omega
  have hlower : 60 * p.r.toNat + 258 * p.g.toNat + 65242 * p.b.toNat + 136960 ≤ 65536 * v + 255 * (298 + 516 + 256) := by
    omega
  omega

/-- The chroma weights of R78 add up to 0: a grey pixel has neutral chroma. -/
theorem rgbToYcc601_grey (v : Byte) : ∃ y : Byte, rgbToYcc601 ⟨v, v, v⟩ = ⟨y, 128, 128⟩ ∧
    (y.toNat : Int) = Ref.luma601 v v v := by
  have hcb : Ref.cb601 v v v = 128 := by unfold Ref.cb601; omega
  have hcr : Ref.cr601 v v v = 128 := by unfold Ref.cr601; omega
  refine ⟨_, ?_, rgbToYcc601_y ⟨v, v, v⟩⟩
  rw [rgbToYcc601, (cb601_eq_ref ⟨v, v, v⟩).trans hcb, (cr601_eq_ref ⟨v, v, v⟩).trans hcr]
  rfl

/-- Neutral chroma comes back as a grey pixel (R80). -/
theorem yccToRgb_grey (y : Byte) : ∃ x : Byte, yccToRgb ⟨y, 128, 128⟩ = ⟨x, x, x⟩ ∧
    (x.toNat : Int) = Ref.clamp ((298 * ((y.toNat : Int) - 16) + 128) / 256) := by
  refine ⟨_, ?_, toByte_clamp8 _⟩
  simp [yccToRgb, asr_8]

/-- A grey pixel comes back grey, within 1: its chroma is exact. -/
theorem roundTrip_grey (v : Byte) : ∃ x : Byte, yccToRgb (rgbToYcc601 ⟨v, v, v⟩) = ⟨x, x, x⟩ ∧
    ((x.toNat : Int) - v.toNat).natAbs ≤ 1 := by
  obtain ⟨y, hycc, hluma⟩ := rgbToYcc601_grey v
  obtain ⟨x, hrgb, hvalue⟩ := yccToRgb_grey y
  refine ⟨x, by rw [hycc, hrgb], ?_⟩
  rw [hvalue, hluma]
  refine (natAbs_clamp_sub_le _ v).trans ?_
  have hy := luma601_bounds v v v
  omega

/-- Settles O33: a bound for each channel, and a pixel that reaches it. -/
theorem pixelRoundTripBound : Obligations.PixelRoundTripBound := by
  refine ⟨fun r g b => ⟨roundTrip_red ⟨r, g, b⟩, roundTrip_green ⟨r, g, b⟩, roundTrip_blue ⟨r, g, b⟩⟩, fun v => ?_,
    by decide, ⟨0, 1, 215, by decide⟩, ⟨0, 184, 141, by decide⟩, by decide⟩
  obtain ⟨x, hx, hgrey⟩ := roundTrip_grey v
  rw [hx]
  exact ⟨hgrey, hgrey, hgrey⟩

end Sys2Proof.Machine
end

section
/-! Proofs of the statements about a frame command's `CMD` write (43_color_frame.md R89 to R91): the model's format and
argument checks are those of `Ref`, and what follows them is an error or the latch. -/

namespace Sys2Proof.Machine

/-! ### The format check (R90) -/

/-- A depth operand other than 24 and 32 is not supported. -/
theorem depthOf_eq_none {depth : Byte} (h : ¬(depth.toNat = 24 ∨ depth.toNat = 32)) : depthOf depth = none := by
  have h24 : depth ≠ 24#8 := by rintro rfl; simp at h
  have h32 : depth ≠ 32#8 := by rintro rfl; simp at h
  simp [depthOf, h24, h32]

/-- The model supports the formats of `Ref.format`. -/
theorem supportedFormat_eq_ref (op : FrameOp) (depth : Byte) (subs : BitVec 2) :
    supportedFormat op depth subs = Ref.format op depth subs := by
  by_cases h24 : depth = 24#8
  · subst h24
    revert subs
    cases op <;> decide
  by_cases h32 : depth = 32#8
  · subst h32
    revert subs
    cases op <;> decide
  have hn24 : depth.toNat ≠ 24 := fun h => h24 (BitVec.eq_of_toNat_eq h)
  have hn32 : depth.toNat ≠ 32 := fun h => h32 (BitVec.eq_of_toNat_eq h)
  have hmodel : supportedFormat op depth subs = none := by
    simp [supportedFormat, depthOf_eq_none (not_or.mpr ⟨hn24, hn32⟩)]
  rw [hmodel]
  unfold Ref.format
  split <;> simp_all

/-- The forward command supports depths 24 and 32 with 4:2:0 and 4:4:4 alone. -/
theorem format_rgb2ycc_eq_none {depth : Byte} {subs : BitVec 2}
    (h : ¬((depth.toNat = 24 ∨ depth.toNat = 32) ∧ (subs.toNat = 0 ∨ subs.toNat = 1))) :
    Ref.format .rgb2ycc depth subs = none := by
  unfold Ref.format
  split <;> simp_all

/-- The inverse command supports depth 24 with 4:2:0 alone. -/
theorem format_ycc2rgb_eq_none {depth : Byte} {subs : BitVec 2} (h : ¬(depth.toNat = 24 ∧ subs.toNat = 0)) :
    Ref.format .ycc2rgb depth subs = none := by
  unfold Ref.format
  split <;> simp_all

/-! ### The argument checks (R89) -/

/-- Bytes per pixel from bits per pixel (R86). -/
theorem depthBits_div_8 (dep : Depth) : Ref.depthBits dep / 8 = bytesPerPixel dep := by
  cases dep <;> rfl

/-- A row of `w` pixels in bytes, as R88 and R86 give it. -/
theorem row_bytes_eq (w : Nat) (dep : Depth) : w * Ref.depthBits dep / 8 = w * bytesPerPixel dep := by
  cases dep <;> simp only [Ref.depthBits, bytesPerPixel] <;> omega

/-- The regions of a job are those of the table of R88. -/
theorem regions_eq_ref (op : FrameOp) (dep : Depth) (sub : Subs) (d : Desc) :
    (⟨op, dep, sub, d⟩ : Job).regions = Ref.regions op dep sub d := by
  cases op with
  | ycc2rgb => rfl
  | rgb2ycc => cases sub <;> simp only [Ref.regions, row_bytes_eq] <;> rfl

/-- The last byte of a region with a row lies past the address space, in integer arithmetic (R89, check 4). -/
theorem pastEnd_iff {r : Region} (h : 0 < r.rows) : r.pastEnd = true ↔
    (0xFFFFFFFF : Int) < (r.base : Int) + (r.stride : Int) * ((r.rows : Int) - 1) + (r.rowBytes : Int) - 1 := by
  have hlast : (r.stride : Int) * ((r.rows : Int) - 1) = (r.stride * (r.rows - 1) : Nat) := by
    rw [Nat.cast_mul, Nat.cast_pred h]
  rw [hlast, Region.pastEnd, decide_eq_true_eq]
  omega

/-- The picture's sizes fail check 1 or check 2 of R89. -/
def badSize (sub : Subs) (w h : Nat) : Prop := (w = 0 ∨ h = 0) ∨ (sub = .s420 ∧ (w % 2 = 1 ∨ h % 2 = 1))

theorem argumentsBad_iff (j : Job) : argumentsBad j = true ↔
    (badSize j.subs j.w j.h ∨ ∃ r ∈ j.regions, r.stride < r.rowBytes) ∨ ∃ r ∈ j.regions, r.pastEnd = true := by
  simp [argumentsBad, badSize]

theorem badArgument_iff (op : FrameOp) (dep : Depth) (sub : Subs) (d : Desc) : Ref.badArgument op dep sub d = true ↔
    (badSize sub d.width.toNat d.height.toNat ∨ ∃ r ∈ Ref.regions op dep sub d, r.stride < r.rowBytes) ∨
    ∃ r ∈ Ref.regions op dep sub d, (0xFFFFFFFF : Int) < (r.base : Int) + (r.stride : Int) * ((r.rows : Int) - 1) +
      (r.rowBytes : Int) - 1 := by
  simp [Ref.badArgument, badSize]

/-- In a picture whose sizes pass the checks every region has a row. -/
theorem rows_pos {j : Job} (hsub : j.op = .ycc2rgb → j.subs = .s420) (hsize : ¬badSize j.subs j.w j.h) {r : Region}
    (hr : r ∈ j.regions) : 0 < r.rows := by
  obtain ⟨hzero, hodd⟩ := not_or.mp hsize
  have hchroma : 0 < j.chromaRows := by
    unfold Job.chromaRows
    split
    next hhalf =>
      have h420 : j.subs = .s420 := by
        obtain hop | h : j.op = .ycc2rgb ∨ j.subs = .s420 := by simpa [Job.halfChroma] using hhalf
        · exact hsub hop
        · exact h
      have := not_and.mp hodd h420
      omega
    next => omega
  have hh : 0 < j.h := by omega
  simp only [Job.regions, List.mem_cons, List.not_mem_nil, or_false] at hr
  obtain rfl | rfl | rfl | rfl := hr
  · exact hh
  · exact hh
  · exact hchroma
  · exact hchroma

/-- For a supported format the model's argument checks are those of R89: where the sizes pass, the model's end of a region
is the exact one. -/
theorem argumentsBad_eq_ref {op : FrameOp} {sub : Subs} (hsub : op = .ycc2rgb → sub = .s420) (dep : Depth) (d : Desc) :
    argumentsBad ⟨op, dep, sub, d⟩ = Ref.badArgument op dep sub d := by
  rw [Bool.eq_iff_iff, argumentsBad_iff, badArgument_iff, ← regions_eq_ref]
  by_cases hsize : badSize sub d.width.toNat d.height.toNat
  · exact iff_of_true (.inl (.inl hsize)) (.inl (.inl hsize))
  · refine or_congr Iff.rfl (exists_congr fun r => and_congr_right fun hr => ?_)
    exact pastEnd_iff (rows_pos (j := ⟨op, dep, sub, d⟩) hsub hsize hr)

/-! ### The `CMD` write (R91) -/

section
variable {op : FrameOp} {depth : Byte} {subs : BitVec 2} {dep : Depth} {sub : Subs}

/-- An inverse format is 4:2:0. -/
theorem subs_of_format (h : Ref.format op depth subs = some (dep, sub)) : op = .ycc2rgb → sub = .s420 := by
  rintro rfl
  unfold Ref.format at h
  split at h <;> simp_all

/-- An unsupported format raises its error, whatever the descriptor (R90). -/
theorem issueFrame_unsupported {s : State} (hb : s.busy = false) (hf : Ref.format op depth subs = none) :
    issueFrame op depth subs s = .next (s.accept.raise .unsupportedFormat) := by
  rw [issueFrame, issue_idle s _ hb]
  simp [frameCheck, supportedFormat_eq_ref, hf]

/-- With a supported format a failed argument check raises its error (R89). -/
theorem issueFrame_invalid {s : State} (hb : s.busy = false) (hf : Ref.format op depth subs = some (dep, sub))
    (hbad : Ref.badArgument op dep sub s.desc = true) :
    issueFrame op depth subs s = .next (s.accept.raise .invalidArgument) := by
  rw [issueFrame, issue_idle s _ hb]
  simp [frameCheck, supportedFormat_eq_ref, hf, argumentsBad_eq_ref (subs_of_format hf), hbad]

/-- With a supported format and good arguments the job is latched (R91). -/
theorem issueFrame_latch {s : State} (hb : s.busy = false) (hf : Ref.format op depth subs = some (dep, sub))
    (hgood : Ref.badArgument op dep sub s.desc = false) :
    issueFrame op depth subs s = .next (s.accept.latch ⟨op, dep, sub, s.desc⟩) := by
  rw [issueFrame, issue_idle s _ hb]
  simp [frameCheck, supportedFormat_eq_ref, hf, argumentsBad_eq_ref (subs_of_format hf), hgood]

end

/-- Settles O34: the checks pass, and the job is latched. -/
theorem frmRgb2yccLatchesItsJob : Obligations.FrmRgb2yccLatchesItsJob :=
  fun _ _ _ _ _ hb hf hgood => issueFrame_latch hb hf hgood

/-- Settles O35: the checks pass, and the job is latched. -/
theorem frmYcc2rgbLatchesItsJob : Obligations.FrmYcc2rgbLatchesItsJob :=
  fun _ _ _ _ _ hb hf hgood => issueFrame_latch hb hf hgood

/-- Settles O36: the format check comes first. -/
theorem unsupportedFormats : Obligations.UnsupportedFormats := fun _ _ _ hb =>
  ⟨fun h => issueFrame_unsupported hb (format_rgb2ycc_eq_none h),
    fun h => issueFrame_unsupported hb (format_ycc2rgb_eq_none h)⟩

/-- Settles O37: the format check passes, and an argument check does not. -/
theorem invalidArguments : Obligations.InvalidArguments := fun _ _ _ _ _ hb =>
  ⟨issueFrame_invalid hb, issueFrame_invalid hb⟩

end Sys2Proof.Machine
end

section
/-! Proofs of the statements about the completion of a frame (43_color_frame.md R92 to R98). Each destination plane of a
forward job holds a byte computed from the source pixels, for no destination region meets another; what the statements
say of the planes is what R78 and R79 say of those bytes. -/

namespace Sys2Proof.Machine

/-! ### The completion step (R96, R97) -/

/-- Settles O44: the completion's cells lie in the destination regions. -/
theorem completionFrame : Obligations.CompletionFrame := by
  intro s t j hj h
  rw [engineTurn_of_job hj] at h
  obtain ⟨hadmitted, _, rfl⟩ := completeJob_cases h
  refine ⟨rfl, rfl, rfl, rfl, rfl, rfl, rfl, rfl, rfl, fun a ha => ?_⟩
  refine read_writeAll_of_not_mem _ _ _ fun c hc hca => ?_
  obtain ⟨hdest, _⟩ := completionCells_addr hadmitted hc
  have hin := (inRegions_iff j.dests a).mpr (hca ▸ hdest)
  simp [ha] at hin

/-- Settles O45: an overlap makes the completion's bytes unspecified. -/
theorem overlapGivesFreeBytes : Obligations.OverlapGivesFreeBytes := by
  intro s j hj hoverlap hcan
  obtain ⟨t, ht⟩ := engineTurn_of_canComplete hj hcan
  obtain ⟨hnone, herr, _⟩ := engineTurn_frame ht
  have hopen : j.unspecified s.raced = true := by simp [Job.unspecified, hoverlap]
  exact ⟨t, ht, (not_busy_iff_job t).mpr hnone, herr, fun _ ha => read_of_engineTurn_unspecified hj ht hopen ha⟩

/-- A clean job that can complete leaves the bytes of its rule, computed from memory as it stood (R96). -/
theorem engineTurn_clean {s : State} {j : Job} (hc : cleanJob s j) (hcan : Ref.canComplete s j) :
    ∃ t, engineTurn s = .next t ∧ t.busy = false ∧ t.mem = s.mem.writeAll (j.cells s.params s.mem) := by
  have ⟨hjob, _⟩ := hc
  obtain ⟨hadmitted, htuples⟩ := hcan
  rw [engineTurn_of_job hjob]
  refine completeJob_clean hc hadmitted fun h444 => ?_
  obtain ⟨hop, hsub⟩ : j.op = .rgb2ycc ∧ j.subs = .s444 := by simpa [Job.uses444] using h444
  exact htuples hop hsub

/-! ### Pixels in memory (R86, R87) -/

theorem pixRead_eq_ref (q : Params) (m : Memory) (p : Nat) : pixRead q.channelOrder m p = Ref.pixel q m p := by
  unfold pixRead Ref.pixel
  cases q.channelOrder <;> rfl

/-- A pixel read depends on three bytes: a fourth is not read (R86). -/
theorem pixRead_congr {m m' : Memory} {p : Nat} (h : ∀ k < 3, m.read (p + k) = m'.read (p + k)) (order : ChannelOrder) :
    pixRead order m p = pixRead order m' p := by
  have h0 : m.read p = m'.read p := h 0 (by omega)
  cases order <;> simp only [pixRead, h0, h 1 (by omega), h 2 (by omega)]

/-- Reading a pixel gives back what was written byte by byte (R86, R87). -/
theorem pixel_of_pixByte {q : Params} {m : Memory} {p : Nat} {px : Rgb}
    (h : ∀ k < 3, m.read (p + k) = pixByte q.channelOrder px k) : Ref.pixel q m p = px := by
  have h0 : m.read p = pixByte q.channelOrder px 0 := h 0 (by omega)
  rw [← pixRead_eq_ref]
  cases horder : q.channelOrder <;>
    simp only [pixRead, h0, h 1 (by omega), h 2 (by omega), horder, pixByte]

/-- The source pixels of a job, by destination row and column. -/
def Job.source (j : Job) (q : Params) (m : Memory) : Nat → Nat → Rgb := j.sourcePixel q.channelOrder m

/-- Rows are read bottom to top (R92, R93). -/
theorem source_eq_ref (j : Job) (q : Params) (m : Memory) (r c : Nat) : j.source q m r c =
    Ref.pixel q m (j.desc.rgbAddr.toNat + (j.desc.height.toNat - 1 - r) * j.desc.rgbStride.toNat +
      c * (Ref.depthBits j.depth / 8)) := by
  rw [depthBits_div_8, ← pixRead_eq_ref]
  rfl

/-! ### Regions in memory -/

/-- Filling a region leaves the bytes of a region that does not meet it. -/
theorem read_fill_of_not_meets {g o : Region} (h : g.meets o = false) (f : Nat → Nat → Byte) (m : Memory) {i k : Nat}
    (hi : i < g.rows) (hk : k < g.rowBytes) :
    (m.writeAll (o.fill f)).read (g.base + i * g.stride + k) = m.read (g.base + i * g.stride + k) :=
  read_fill_outside o f m (not_mem_of_not_meets h ((mem_addrs g _).mpr ⟨i, hi, k, hk, rfl⟩))

/-! ### The planes of a forward job (R92, R93) -/

/-- The luma byte of row `r`, column `c`, from the source pixels. -/
def Job.lumaByte (j : Job) (q : Params) (px : Nat → Nat → Rgb) (r c : Nat) : Byte :=
  match j.subs with
  | .s444 => (rgbToYcc444 q (px r c)).y
  | .s420 => (rgbToYcc601 (px r c)).y

/-- The byte of row `i`, column `k` of a chroma plane with the 4:4:4 tuple `t` and the 8-bit formula `f601`, from the source
pixels. -/
def Job.chromaByte (j : Job) (t : Chroma444) (f601 : Rgb → Int) (px : Nat → Nat → Rgb) (i k : Nat) : Byte :=
  match j.subs with
  | .s444 => toByte (chroma444 t (px i k))
  | .s420 => toByte (average4 (fun r c => f601 (px r c)) i k)

/-- A forward job fills its planes with those bytes. -/
theorem cells_forward {j : Job} (hop : j.op = .rgb2ycc) (q : Params) (m : Memory) : j.cells q m =
    j.yRegion.fill (j.lumaByte q (j.source q m)) ++
    j.cbRegion.fill (j.chromaByte q.cb444 cb601 (j.source q m)) ++
    j.crRegion.fill (j.chromaByte q.cr444 cr601 (j.source q m)) := by
  unfold Job.cells Job.lumaByte Job.chromaByte
  rw [hop]
  cases j.subs <;> rfl

/-- The region holds the bytes `f`, by row and column. -/
def Region.Holds (g : Region) (m : Memory) (f : Nat → Nat → Byte) : Prop :=
  ∀ i < g.rows, ∀ k < g.rowBytes, m.read (g.base + i * g.stride + k) = f i k

theorem Region.Holds.toNat_eq {g : Region} {m : Memory} {f : Nat → Nat → Byte} (h : g.Holds m f) {i k : Nat}
    (hi : i < g.rows) (hk : k < g.rowBytes) {v : Int} (hv : ((f i k).toNat : Int) = v) :
    ((m.read (g.base + i * g.stride + k)).toNat : Int) = v := by
  rw [h i hi k hk, hv]

/-- The planes of a forward job hold the bytes of the source pixels `px`. -/
structure PlanesHold (j : Job) (q : Params) (px : Nat → Nat → Rgb) (m : Memory) : Prop where
  luma : j.yRegion.Holds m (j.lumaByte q px)
  cb : j.cbRegion.Holds m (j.chromaByte q.cb444 cb601 px)
  cr : j.crRegion.Holds m (j.chromaByte q.cr444 cr601 px)

/-- The planes of a forward job that does not overlap do not meet (R97). -/
theorem planes_disjoint {j : Job} (hop : j.op = .rgb2ycc) (h : j.overlaps = false) :
    j.yRegion.meets j.cbRegion = false ∧ j.yRegion.meets j.crRegion = false ∧
    j.cbRegion.meets j.crRegion = false := by
  simp only [Job.overlaps, hop, Bool.or_eq_false_iff] at h
  obtain ⟨⟨⟨_, hycb⟩, hycr⟩, hcbcr⟩ := h
  exact ⟨hycb, hycr, hcbcr⟩

/-- The completion of a clean forward job leaves each plane with its bytes: a later fill leaves the planes filled before
it. -/
theorem engineTurn_forward {s : State} {j : Job} (hc : cleanJob s j) (hop : j.op = .rgb2ycc) (hv : j.valid = true)
    (hcan : Ref.canComplete s j) :
    ∃ t, engineTurn s = .next t ∧ t.busy = false ∧ PlanesHold j s.params (j.source s.params s.mem) t.mem := by
  obtain ⟨t, ht, hbusy, hmem⟩ := engineTurn_clean hc hcan
  obtain ⟨_, _, hoverlaps⟩ := hc
  obtain ⟨hycb, hycr, hcbcr⟩ := planes_disjoint hop hoverlaps
  have hy : j.yRegion.rowBytes ≤ j.yRegion.stride := valid_stride hv (by simp [Job.regions])
  have hcb : j.cbRegion.rowBytes ≤ j.cbRegion.stride := valid_stride hv (by simp [Job.regions])
  have hcr : j.crRegion.rowBytes ≤ j.crRegion.stride := valid_stride hv (by simp [Job.regions])
  rw [cells_forward hop, writeAll_append, writeAll_append] at hmem
  refine ⟨t, ht, hbusy, hmem ▸ ⟨fun r hr c hcw => ?_, fun i hi k hk => ?_, fun i hi k hk => ?_⟩⟩
  · rw [read_fill_of_not_meets hycr _ _ hr hcw, read_fill_of_not_meets hycb _ _ hr hcw, read_fill _ _ _ hy hr hcw]
  · rw [read_fill_of_not_meets hcbcr _ _ hi hk, read_fill _ _ _ hcb hi hk]
  · exact read_fill _ _ _ hcr hi hk

/-! ### 4:4:4 (R92) -/

/-- In 4:4:4 a chroma plane has the picture's size (R88). -/
theorem chromaSize_444 {j : Job} (hop : j.op = .rgb2ycc) (hsub : j.subs = .s444) :
    j.chromaRows = j.h ∧ j.chromaRowBytes = j.w := by
  simp [Job.chromaRows, Job.chromaRowBytes, Job.halfChroma, hop, hsub]

theorem lumaByte_444 {j : Job} (hsub : j.subs = .s444) (q : Params) (px : Nat → Nat → Rgb) (r c : Nat) :
    ((j.lumaByte q px r c).toNat : Int) = Ref.luma444 (px r c).r (px r c).g (px r c).b := by
  rw [Job.lumaByte, hsub]
  exact rgbToYcc444_y q (px r c)

theorem chromaByte_444 {j : Job} (hsub : j.subs = .s444) {t : Chroma444} (ht : chromaAdmissible t = true)
    (f601 : Rgb → Int) (px : Nat → Nat → Rgb) (i k : Nat) :
    ((j.chromaByte t f601 px i k).toNat : Int) = Ref.chroma444 t (px i k).r (px i k).g (px i k).b := by
  rw [Job.chromaByte, hsub]
  exact toByte_chroma444 ht (px i k)

/-- Settles O41: each plane's byte is the value of R79 of its source pixel. -/
theorem forward444Planes : Obligations.Forward444Planes := by
  intro s j hc hop hsub hv hcan
  obtain ⟨t, ht, hbusy, hluma, hcb, hcr⟩ := engineTurn_forward hc hop hv hcan
  obtain ⟨hrows, hcols⟩ := chromaSize_444 hop hsub
  obtain ⟨_, htuples⟩ := hcan
  obtain ⟨hcbok, hcrok⟩ := paramsAdmissible_iff.mp (htuples hop hsub)
  refine ⟨t, ht, hbusy, fun r c hr hcw p hp => ?_⟩
  rw [← source_eq_ref] at hp
  subst hp
  have hr' : r < j.chromaRows := hrows ▸ hr
  have hc' : c < j.chromaRowBytes := hcols ▸ hcw
  exact ⟨hluma.toNat_eq hr hcw (lumaByte_444 hsub _ _ r c), hcb.toNat_eq hr' hc' (chromaByte_444 hsub hcbok _ _ r c),
    hcr.toNat_eq hr' hc' (chromaByte_444 hsub hcrok _ _ r c)⟩

/-! ### 4:2:0 (R93) -/

/-- In 4:2:0 a chroma plane has half the picture's size in each direction (R88). -/
theorem chromaSize_420 {j : Job} (hsub : j.subs = .s420) :
    j.chromaRows = j.h / 2 ∧ j.chromaRowBytes = j.w / 2 := by
  simp [Job.chromaRows, Job.chromaRowBytes, Job.halfChroma, hsub]

theorem lumaByte_420 {j : Job} (hsub : j.subs = .s420) (q : Params) (px : Nat → Nat → Rgb) (r c : Nat) :
    ((j.lumaByte q px r c).toNat : Int) = Ref.luma601 (px r c).r (px r c).g (px r c).b := by
  rw [Job.lumaByte, hsub]
  exact rgbToYcc601_y (px r c)

/-- The average of four bytes is a byte, and the floor of a quarter of their sum (R81, R93). -/
theorem chromaByte_420 {j : Job} (hsub : j.subs = .s420) (t : Chroma444) {f601 : Rgb → Int}
    (hf : ∀ p, 16 ≤ f601 p ∧ f601 p ≤ 240) (px : Nat → Nat → Rgb) (i k : Nat) :
    ((j.chromaByte t f601 px i k).toNat : Int) = (f601 (px (2 * i) (2 * k)) + f601 (px (2 * i) (2 * k + 1)) +
      f601 (px (2 * i + 1) (2 * k)) + f601 (px (2 * i + 1) (2 * k + 1))) / 4 := by
  have h00 := hf (px (2 * i) (2 * k))
  have h01 := hf (px (2 * i) (2 * k + 1))
  have h10 := hf (px (2 * i + 1) (2 * k))
  have h11 := hf (px (2 * i + 1) (2 * k + 1))
  rw [Job.chromaByte, hsub]
  simp only
  rw [average4, truncDiv_of_nonneg _ (by omega), toByte_toNat (by omega) (by omega)]

theorem cb601_pixel_range (p : Rgb) : 16 ≤ cb601 p ∧ cb601 p ≤ 240 := cb601_eq_ref p ▸ cb601_range p.r p.g p.b

theorem cr601_pixel_range (p : Rgb) : 16 ≤ cr601 p ∧ cr601 p ≤ 240 := cr601_eq_ref p ▸ cr601_range p.r p.g p.b

/-- Settles O42: each luma byte is the value of R78 of its source pixel, and each chroma byte the average over its block. -/
theorem forward420Planes : Obligations.Forward420Planes := by
  intro s j hc hop hsub hv hcan
  obtain ⟨t, ht, hbusy, hluma, hcb, hcr⟩ := engineTurn_forward hc hop hv hcan
  obtain ⟨hrows, hcols⟩ := chromaSize_420 hsub
  refine ⟨t, ht, hbusy, fun px hpx => ?_⟩
  obtain rfl : j.source s.params s.mem = px := by
    funext r c
    rw [source_eq_ref, hpx]
  refine ⟨fun r c hr hcw => hluma.toNat_eq hr hcw (lumaByte_420 hsub _ _ r c), fun i k hi hk cb cr hcbv hcrv => ?_⟩
  simp only [hcbv, hcrv, ← cb601_eq_ref, ← cr601_eq_ref]
  have hi' : i < j.chromaRows := hrows ▸ hi
  have hk' : k < j.chromaRowBytes := hcols ▸ hk
  exact ⟨hcb.toNat_eq hi' hk' (chromaByte_420 hsub _ cb601_pixel_range _ i k),
    hcr.toNat_eq hi' hk' (chromaByte_420 hsub _ cr601_pixel_range _ i k)⟩

/-! ### The ranges of the planes (R98) -/

theorem lumaByte_range (j : Job) (q : Params) (px : Nat → Nat → Rgb) (r c : Nat) :
    16 ≤ (j.lumaByte q px r c).toNat ∧ (j.lumaByte q px r c).toNat ≤ 235 := by
  cases hsub : j.subs with
  | s444 =>
    have hvalue := lumaByte_444 hsub q px r c
    have hrange := luma444_range (px r c).r (px r c).g (px r c).b
    omega
  | s420 =>
    have hvalue := lumaByte_420 hsub q px r c
    have hrange := luma601_range (px r c).r (px r c).g (px r c).b
    omega

/-- A chroma byte is in range where the values of both formulas are: an average is between its least and its greatest. -/
theorem chromaByte_range (j : Job) {t : Chroma444} (ht : chromaAdmissible t = true)
    (h444 : ∀ r g b : Byte, 16 ≤ Ref.chroma444 t r g b ∧ Ref.chroma444 t r g b ≤ 240) {f601 : Rgb → Int}
    (h601 : ∀ p, 16 ≤ f601 p ∧ f601 p ≤ 240) (px : Nat → Nat → Rgb) (i k : Nat) :
    16 ≤ (j.chromaByte t f601 px i k).toNat ∧ (j.chromaByte t f601 px i k).toNat ≤ 240 := by
  cases hsub : j.subs with
  | s444 =>
    have hvalue := chromaByte_444 hsub ht f601 px i k
    have hrange := h444 (px i k).r (px i k).g (px i k).b
    omega
  | s420 =>
    have hvalue := chromaByte_420 hsub t h601 px i k
    have h00 := h601 (px (2 * i) (2 * k))
    have h01 := h601 (px (2 * i) (2 * k + 1))
    have h10 := h601 (px (2 * i + 1) (2 * k))
    have h11 := h601 (px (2 * i + 1) (2 * k + 1))
    omega

/-- The default tuples keep chroma in 16 to 240 (R98). -/
theorem defaultCb444_range (r g b : Byte) :
    16 ≤ Ref.chroma444 Params.defaultCb444 r g b ∧ Ref.chroma444 Params.defaultCb444 r g b ≤ 240 := by
  simp only [Ref.chroma444, Ref.chromaNumerator, Params.defaultCb444]
  omega

theorem defaultCr444_range (r g b : Byte) :
    16 ≤ Ref.chroma444 Params.defaultCr444 r g b ∧ Ref.chroma444 Params.defaultCr444 r g b ≤ 240 := by
  simp only [Ref.chroma444, Ref.chromaNumerator, Params.defaultCr444]
  omega

/-- Where every byte a region holds is in a range, so is the byte at each of its addresses. -/
theorem Region.Holds.range {g : Region} {m : Memory} {f : Nat → Nat → Byte} (h : g.Holds m f) {lo hi : Nat}
    (hf : ∀ i k, lo ≤ (f i k).toNat ∧ (f i k).toNat ≤ hi) :
    ∀ a ∈ g.addrs, lo ≤ (m.read a).toNat ∧ (m.read a).toNat ≤ hi := by
  intro a ha
  obtain ⟨i, hi, k, hk, rfl⟩ := (mem_addrs g a).mp ha
  rw [h i hi k hk]
  exact hf i k

/-- Settles O49: each plane holds bytes of a formula whose values are in range. -/
theorem planeRanges : Obligations.PlaneRanges := by
  intro s j hc hop hv hcan hcbt hcrt
  obtain ⟨t, ht, _, hluma, hcb, hcr⟩ := engineTurn_forward hc hop hv hcan
  rw [hcbt] at hcb
  rw [hcrt] at hcr
  obtain ⟨hcbok, hcrok⟩ := paramsAdmissible_iff.mp default_admissible
  exact ⟨t, ht, hluma.range (lumaByte_range j _ _),
    hcb.range (chromaByte_range j hcbok defaultCb444_range cb601_pixel_range _),
    hcr.range (chromaByte_range j hcrok defaultCr444_range cr601_pixel_range _)⟩

/-! ### The fourth byte (R86) -/

/-- The source pixels `px` and `px'` are the same inside the picture. -/
def SameSource (j : Job) (px px' : Nat → Nat → Rgb) : Prop := ∀ r < j.h, ∀ c < j.w, px' r c = px r c

theorem SameSource.lumaByte_eq {j : Job} {px px' : Nat → Nat → Rgb} (h : SameSource j px px') (q : Params) {r c : Nat}
    (hr : r < j.h) (hc : c < j.w) : j.lumaByte q px' r c = j.lumaByte q px r c := by
  simp only [Job.lumaByte, h r hr c hc]

/-- The block of a chroma sample lies inside the picture. -/
theorem SameSource.chromaByte_eq {j : Job} {px px' : Nat → Nat → Rgb} (h : SameSource j px px') (hop : j.op = .rgb2ycc)
    (t : Chroma444) (f601 : Rgb → Int) {i k : Nat} (hi : i < j.chromaRows) (hk : k < j.chromaRowBytes) :
    j.chromaByte t f601 px' i k = j.chromaByte t f601 px i k := by
  unfold Job.chromaByte
  cases hsub : j.subs with
  | s444 =>
    obtain ⟨hrows, hcols⟩ := chromaSize_444 hop hsub
    simp only [h i (hrows ▸ hi) k (hcols ▸ hk)]
  | s420 =>
    obtain ⟨hrows, hcols⟩ := chromaSize_420 hsub
    rw [hrows] at hi
    rw [hcols] at hk
    have hpx : ∀ r c, r < j.h → c < j.w → px' r c = px r c := fun r c hr hc => h r hr c hc
    simp (disch := omega) only [average4, hpx]

/-- Planes of the same source pixels are the same bytes. -/
theorem PlanesHold.read_eq {j : Job} {q : Params} {px px' : Nat → Nat → Rgb} {m m' : Memory}
    (hm : PlanesHold j q px m) (hm' : PlanesHold j q px' m') (hop : j.op = .rgb2ycc) (h : SameSource j px px') {a : Nat}
    (ha : inRegions j.dests a = true) : m'.read a = m.read a := by
  obtain ⟨g, hg, hag⟩ := (inRegions_iff _ _).mp ha
  obtain ⟨i, hi, k, hk, rfl⟩ := (mem_addrs g a).mp hag
  simp only [Job.dests, hop, List.mem_cons, List.not_mem_nil, or_false] at hg
  obtain rfl | rfl | rfl := hg
  · rw [hm.luma i hi k hk, hm'.luma i hi k hk, h.lumaByte_eq q hi hk]
  · rw [hm.cb i hi k hk, hm'.cb i hi k hk, h.chromaByte_eq hop _ _ hi hk]
  · rw [hm.cr i hi k hk, hm'.cr i hi k hk, h.chromaByte_eq hop _ _ hi hk]

/-- Memories that differ at most in fourth bytes of a 32-bit job's source pixels give the same source: a byte of
the RGB region has one row and one place in it. -/
theorem sameSource_of_fourth_bytes {j : Job} (hop : j.op = .rgb2ycc) (hdepth : j.depth = .d32) (hv : j.valid = true)
    {m m' : Memory} (h : ∀ a, (∀ r c : Nat, r < j.h → c < j.w →
      a ≠ j.desc.rgbAddr.toNat + r * j.desc.rgbStride.toNat + 4 * c + 3) → m'.read a = m.read a) (q : Params) :
    SameSource j (j.source q m) (j.source q m') := by
  intro r hr c hc
  have hrow : j.rgbRegion.rowBytes = j.w * 4 := by simp [Job.rgbRegion, Job.rgbRowBytes, hop, hdepth, bytesPerPixel]
  have hstride : j.rgbRegion.rowBytes ≤ j.rgbRegion.stride := valid_stride hv (by simp [Job.regions])
  refine pixRead_congr (fun k hk => h _ fun r' c' hr' hc' heq => ?_) q.channelOrder
  rw [hdepth, bytesPerPixel, Nat.add_assoc, Nat.add_assoc _ (4 * c') 3] at heq
  obtain ⟨_, hcol⟩ := region_injective j.rgbRegion hstride (by omega) (by omega) heq
  omega

/-- Settles O50: the two completions read the same source pixels. -/
theorem fourthByteIsIgnored : Obligations.FourthByteIsIgnored := by
  intro s j m hc hop hdepth hv hcan hm
  obtain ⟨t, ht, _, hplanes⟩ := engineTurn_forward hc hop hv hcan
  obtain ⟨u, hu, _, hplanes'⟩ := engineTurn_forward (s := { s with mem := m }) hc hop hv hcan
  exact ⟨t, u, ht, hu, fun a ha => hplanes.read_eq hplanes' hop (sameSource_of_fourth_bytes hop hdepth hv hm _) ha⟩

/-! ### The inverse (R94) -/

/-- The pixel an inverse job writes at row `r`, column `c`. -/
def Job.inversePixel (j : Job) (m : Memory) (r c : Nat) : Rgb :=
  yccToRgb ⟨j.yRegion.sample m r c, j.cbRegion.sample m (r / 2) (c / 2), j.crRegion.sample m (r / 2) (c / 2)⟩

theorem cells_inverse {j : Job} (hop : j.op = .ycc2rgb) (q : Params) (m : Memory) : j.cells q m =
    j.rgbRegion.fill fun r k => pixByte q.channelOrder (j.inversePixel m r (k / 3)) (k % 3) := by
  unfold Job.cells
  rw [hop]
  rfl

/-- The RGB buffer of a completed inverse job reads as its pixels: byte `k` of column `c` is byte `3·c + k` of the row. -/
theorem pixel_inverse {j : Job} (hop : j.op = .ycc2rgb) (hv : j.valid = true) (q : Params) (m : Memory) {r c : Nat}
    (hr : r < j.h) (hc : c < j.w) : Ref.pixel q (m.writeAll (j.cells q m))
      (j.desc.rgbAddr.toNat + r * j.desc.rgbStride.toNat + 3 * c) = j.inversePixel m r c := by
  have hrow : j.rgbRegion.rowBytes = 3 * j.w := by simp [Job.rgbRegion, Job.rgbRowBytes, hop]
  have hstride : j.rgbRegion.rowBytes ≤ j.rgbRegion.stride := valid_stride hv (by simp [Job.regions])
  refine pixel_of_pixByte fun k hk => ?_
  rw [cells_inverse hop, Nat.add_assoc]
  refine (read_fill j.rgbRegion _ m hstride hr (by omega)).trans ?_
  rw [show (3 * c + k) / 3 = c by omega, show (3 * c + k) % 3 = k by omega]

/-- Settles O43: the pixel is the one written, whose channels are the values of R80. -/
theorem inverseFrame : Obligations.InverseFrame := by
  intro s j hc hop hv hcan
  obtain ⟨t, ht, hbusy, hmem⟩ := engineTurn_clean hc hcan
  refine ⟨t, ht, hbusy, ?_⟩
  rintro r c hr hcw _ _ _ p rfl rfl rfl hp
  rw [hmem, pixel_inverse hop hv _ _ hr hcw] at hp
  subst hp
  exact ⟨yccToRgb_r _, yccToRgb_g _, yccToRgb_b _⟩

end Sys2Proof.Machine
end

section
/-! Proofs of the statements about errors (60_exceptions.md): which code a `CMD` write leaves in ERR, that raising it
changes nothing else, and that only an accepted write or a reset changes ERR. -/

namespace Sys2Proof.Machine

/-! ### The error of a `CMD` write (R102) -/

/-- An accepted frame command leaves in ERR the error of the format check, then of the argument checks, then none. -/
theorem err_of_issueFrame {op : FrameOp} {depth : Byte} {subs : BitVec 2} {s t : State} (hb : s.busy = false)
    (h : issueFrame op depth subs s = .next t) : t.err = Ref.frameErr op depth subs s.desc := by
  cases hf : Ref.format op depth subs with
  | none =>
    rw [issueFrame_unsupported hb hf] at h
    cases h
    simp [Ref.frameErr, hf]
  | some format =>
    obtain ⟨dep, sub⟩ := format
    cases hbad : Ref.badArgument op dep sub s.desc with
    | true =>
      rw [issueFrame_invalid hb hf hbad] at h
      cases h
      simp [Ref.frameErr, hf, hbad]
    | false =>
      rw [issueFrame_latch hb hf hbad] at h
      cases h
      simp [Ref.frameErr, hf, hbad]

/-- An illegal word reports ILLEGAL_CMD. -/
theorem writeErr_of_illegal {w : Word} {why : Illegal} (hw : decode w = .illegal why) (d : Desc) :
    Ref.writeErr w d = .illegalCmd := by
  simp [Ref.writeErr, hw]

/-- An accepted command leaves in ERR what a write of its word reports. -/
theorem err_of_exec {w : Word} {i : Instr} (hw : decode w = .command i) {s t : State} (hb : s.busy = false)
    (h : exec i s = .next t) : t.err = Ref.writeErr w s.desc := by
  cases i with
  | frmRgb2ycc depth subs | frmYcc2rgb depth subs =>
    simpa only [Ref.writeErr, hw] using err_of_issueFrame hb h
  | _ => simpa only [Ref.writeErr, hw] using err_of_exec_immediate rfl hb h

/-- An accepted word leaves in ERR the error that R102 gives it, whether it decodes or not. -/
theorem err_of_issueWord {w : Word} {s t : State} (hb : s.busy = false) (h : issueWord w s = .next t) :
    t.err = Ref.writeErr w s.desc := by
  cases hw : decode w with
  | command i =>
    rw [issueWord_command hw] at h
    exact err_of_exec hw hb h
  | illegal why =>
    rw [issueWord_illegal_idle hw hb] at h
    cases h
    exact (writeErr_of_illegal hw _).symm

/-- Settles O17: a word that is dropped sets OVR alone, and an accepted one clears OVR and reports its own error. -/
theorem errorPriority : Obligations.ErrorPriority := by
  intro s w hp
  obtain ⟨t, ht⟩ := issueWord_next w hp
  refine ⟨t, ht, fun hb => ?_, fun hb => ⟨(issueWord_effect ht).ovr_eq_false hb, err_of_issueWord hb ht⟩⟩
  rw [issueWord_busy w hb] at ht
  cases ht
  exact ⟨drop_ovr s, drop_err s⟩

/-! ### What an error changes (R103) -/

/-- An accepted `CMD` write that leaves an error code has raised it, and has done no more than that. -/
theorem CmdEffect.eq_raise_of_err {w : Word} {s t : State} (h : CmdEffect w s t) (hb : s.busy = false)
    (herr : t.err ≠ .none) : t = s.accept.raise t.err := by
  cases h with
  | dropped busy => simp [hb] at busy
  | raised => rfl
  | accepted | result | latched => exact absurd rfl herr

/-- Settles O18: the state after an error is that of acceptance with the code raised. -/
theorem errorsChangeOnlyErr : Obligations.ErrorsChangeOnlyErr :=
  fun _ _ _ hb h herr => (issueWord_effect h).eq_raise_of_err hb herr

/-! ### Who writes ERR (R99, R104) -/

/-- A `CMD` write that changes ERR was accepted (40_command.md R62). -/
theorem CmdEffect.idle_of_err_ne {w : Word} {s t : State} (h : CmdEffect w s t) (hne : t.err ≠ s.err) :
    s.busy = false := by
  cases h with
  | dropped => exact absurd rfl hne
  | accepted idle | result idle | raised idle | latched idle => exact idle

/-- Settles O57: of all moves short of a reset, only an accepted `CMD` write changes ERR. -/
theorem errIsWrittenByAcceptedCommandsOnly : Obligations.ErrIsWrittenByAcceptedCommandsOnly := by
  intro s t h hne
  obtain ⟨hn, w, rest, hops, he⟩ | ⟨_, hq⟩ | ⟨_, he⟩ | ⟨hn, _⟩ := step_cases h
  · exact .inr ⟨hn, he.idle_of_err_ne hne, w, rest, hops⟩
  · exact absurd hq.err_eq hne
  · obtain ⟨_, herr, _, _⟩ := engineTurn_frame he
    exact absurd herr hne
  · exact .inl hn

end Sys2Proof.Machine
end

section
/-! Proofs of the statements about reset and about the completion of a job (70_reset_and_hazards.md). A reset leaves a
state whose registers are cleared, and cleared registers read 0. While a job is in flight, a host that keeps the contract
only delays the engine: each of its turns takes one of the scheduler's choices and leaves the job as it is. -/

namespace Sys2Proof.Machine

/-! ### Reset (R109, R110) -/

/-- Every register at its reset value reads 0 (R109). -/
theorem regRead_clearRegs (s : State) (r : Reg) : regRead s.clearRegs r = 0 := by
  cases r with
  | status => simp [regRead, statusWord_eq, Ref.errNumber]
  | _ => rfl

/-- The state after reset has its registers cleared. -/
theorem clearRegs_reset : State.reset.clearRegs = State.reset := rfl

/-- A reset turn leaves the registers cleared, whether it abandons a job or not. -/
theorem clearRegs_resetTurn (s : State) : (resetTurn s).clearRegs = resetTurn s := by
  rw [resetTurn_eq]
  rfl

/-- Settles O1: both states are their own cleared states. -/
theorem resetClearsEveryRegister : Obligations.ResetClearsEveryRegister := by
  refine ⟨fun r => ?_, rfl, fun s => ⟨resetTurn s, rfl, fun r => ?_, ?_, ?_⟩⟩
  · rw [← clearRegs_reset, regRead_clearRegs]
  · rw [← clearRegs_resetTurn, regRead_clearRegs]
  · rw [resetTurn_eq]
  · rw [resetTurn_eq]

/-- Settles O2: an abandoned job's free cells lie in its destination regions and give each admitted byte its draw. -/
theorem resetAbandonsTheJob : Obligations.ResetAbandonsTheJob := by
  refine fun s => ⟨resetTurn s, rfl, ?_, fun hnone a => ?_, fun j hj => ?_⟩
  · rw [← clearRegs_resetTurn, clearRegs_busy]
  · simp only [resetTurn_eq, hnone]
  · simp only [resetTurn_eq, hj]
    exact ⟨read_freeCells_outside _ _ _ _, read_freeCells_inside _ _ _ _⟩

/-- Settles O52: memory is empty, and there is no job. -/
theorem invariantAtReset : Obligations.InvariantAtReset :=
  ⟨inv_of_no_job empty_wf rfl rfl, rfl, rfl⟩

/-! ### A job in flight is completed (R117) -/

/-- The move leaves the job in flight, the parameters and the scheduler's choices, and every access the host has still to
make was in its list before. -/
structure KeepsWaiting (s t : State) : Prop where
  job_eq : t.job = s.job
  params_eq : t.params = s.params
  turns_eq : t.turns = s.turns
  host_subset : t.host ⊆ s.host

/-- While BUSY is 1 a register write has an outcome, a `CMD` write that of being dropped (40_command.md R62). -/
theorem writeReg_busy {s : State} (hb : s.busy = true) (r : Reg) (w : Word) :
    writeReg r w s = .next s.drop ∨ ∃ d, writeReg r w s = .next (s.setDesc d) := by
  by_cases hr : r = .cmd
  · subst hr
    exact .inl (issueWord_busy w hb)
  · exact .inr ⟨_, writeReg_of_ne_cmd hr w s⟩

/-- While BUSY is 1 an access that keeps the contract has an outcome (20_memory.md R32, R36), and the access itself is the
only one it can put back: it is a poll (30_encoding.md R59). -/
theorem hostAct_legal_busy {op : HostOp} {rest : List HostOp} {s : State} (hops : s.host = op :: rest)
    (hb : s.busy = true) (hl : op.legal s.params = true) :
    ∃ t, hostAct op (s.setHost rest) = .next t ∧ KeepsWaiting s t := by
  have hrest : rest ⊆ s.host := by simp [hops]
  have hall : op :: rest ⊆ s.host := by simp [hops]
  cases op with
  | write size addr w =>
    obtain ⟨r, hr⟩ := Option.isSome_iff_exists.mp hl
    simp only [hostAct, setHost_params, hr]
    obtain hdrop | ⟨d, hdesc⟩ := writeReg_busy (s := s.setHost rest) hb r w
    · exact ⟨_, hdrop, rfl, rfl, rfl, hrest⟩
    · exact ⟨_, hdesc, rfl, rfl, rfl, hrest⟩
  | read size addr =>
    obtain ⟨r, hr⟩ := Option.isSome_iff_exists.mp hl
    simp only [hostAct, setHost_params, hr, readReg_eq]
    exact ⟨_, rfl, rfl, rfl, rfl, hrest⟩
  | poll addr mask value =>
    obtain ⟨r, hr⟩ := Option.isSome_iff_exists.mp hl
    simp only [hostAct, setHost_params, hr, readReg_eq]
    split
    · exact ⟨_, rfl, rfl, rfl, rfl, hrest⟩
    · exact ⟨_, rfl, rfl, rfl, rfl, hall⟩
  | memWrite x b =>
    exact ⟨_, hostAct_memWrite (s := s.setHost rest) hl b, rfl, rfl, rfl, hrest⟩
  | memRead x =>
    cases hf : readIsFree (s.setHost rest) x.toNat with
    | true => exact ⟨_, hostAct_memRead_free hl hf, rfl, rfl, rfl, hrest⟩
    | false => exact ⟨_, hostAct_memRead_settled hl hf, rfl, rfl, rfl, hrest⟩

/-- While BUSY is 1 a turn of a host that keeps the contract has an outcome and keeps the job waiting. -/
theorem hostTurn_legal_busy {s : State} (hb : s.busy = true) (hl : ∀ op ∈ s.host, op.legal s.params = true) :
    ∃ t, hostTurn s = .next t ∧ KeepsWaiting s t := by
  unfold hostTurn
  split
  next => exact ⟨s, rfl, rfl, rfl, rfl, List.Subset.refl _⟩
  next op rest hops => exact hostAct_legal_busy hops hb (hl op (by simp [hops]))

/-- The step is the move of the agent whose turn it is. -/
theorem step_of_nextTurn {s t : State} {turn : Turn} (hn : nextTurn s = turn)
    (h : move turn (s.setTurns s.turns.tail) = .next t) : step s = .next t := by
  rw [step, hn, h]

/-- A run goes on from the first step's outcome. -/
theorem runSteps_succ_of_step {s t : State} (h : step s = .next t) (n : Nat) : runSteps (n + 1) s = runSteps n t := by
  simp [runSteps, h]

/-- A turn of the engine completes a job that can complete (43_color_frame.md R96). -/
theorem engine_step_completes {s : State} {j : Job} (hn : nextTurn s = .engine) (hj : s.job = some j)
    (hcan : Ref.canComplete s j) : ∃ t, runSteps 1 s = .next t ∧ t.busy = false := by
  obtain ⟨t, ht⟩ := engineTurn_of_canComplete (s := s.setTurns s.turns.tail) hj hcan
  obtain ⟨hnone, _⟩ := engineTurn_frame ht
  exact ⟨t, runSteps_succ_of_step (step_of_nextTurn hn ht) 0, (not_busy_iff_job t).mpr hnone⟩

/-- Settles O58, by induction on the scheduler's choices: a host's turn uses one up and keeps the job waiting, an engine's
turn completes the job, and with no choice left the turn is the engine's. -/
theorem framesEventuallyComplete : Obligations.FramesEventuallyComplete := by
  intro s j hj hcan hlegal hreset
  induction hturns : s.turns generalizing s with
  | nil =>
    have hn : nextTurn s = .engine := by simp [nextTurn, hturns, engineEnabled, hj, hcan.1]
    obtain ⟨t, hrun, hidle⟩ := engine_step_completes hn hj hcan
    exact ⟨1, t, by simp, hrun, hidle⟩
  | cons turn ts ih =>
    have hn : nextTurn s = turn := by simp [nextTurn, hturns]
    rw [hturns] at hreset
    cases turn with
    | reset => simp at hreset
    | engine =>
      obtain ⟨t, hrun, hidle⟩ := engine_step_completes hn hj hcan
      exact ⟨1, t, by simp, hrun, hidle⟩
    | host =>
      obtain ⟨u, hu, hwait⟩ := hostTurn_legal_busy (s := s.setTurns s.turns.tail) ((busy_iff_job s).mpr ⟨j, hj⟩) hlegal
      have hparams : u.params = s.params := hwait.params_eq
      have hrest : u.turns = ts := by simp [hwait.turns_eq, hturns]
      have hcan' : Ref.canComplete u j := by simpa [Ref.canComplete, hparams] using hcan
      have hlegal' : ∀ op ∈ u.host, op.legal u.params = true :=
        fun op hop => hparams ▸ hlegal op (hwait.host_subset hop)
      have hreset' : Turn.reset ∉ u.turns := fun hmem => hreset (List.mem_cons_of_mem _ (hrest ▸ hmem))
      obtain ⟨n, t, hle, hrun, hidle⟩ := ih u (hwait.job_eq.trans hj) hcan' hlegal' hreset' hrest
      refine ⟨n + 1, t, by simpa using hle, ?_, hidle⟩
      rw [runSteps_succ_of_step (step_of_nextTurn hn hu), hrun]

end Sys2Proof.Machine
end

section
/-! Proof of the statement about the vector table (95_test_vectors.md section 4). -/

namespace Sys2Proof.Machine

/-- An illegal word has no instruction. -/
theorem instr?_of_illegal {w : Word} {why : Illegal} (h : decode w = .illegal why) : (decode w).instr? = none := by
  rw [h, Decoded.instr?]

/-- Settles O3: the words of commands are the encoder's; of the other two, one has a "must be 0" bit set (R54) and one an
unassigned opcode (R53). -/
theorem decodeSampleWords : Obligations.DecodeSampleWords := by
  have hreserved : decode (Ref.word 0x01#8 0x100#24) = .illegal .reservedBitSet :=
    (reservedBitsAreIllegal State.reset _ _ (by decide)).1
  have hunassigned : decode (Ref.word 0x13#8 0x000000#24) = .illegal .unassignedOpcode :=
    (unassignedOpcodesAreIllegal State.reset _ _ (by decide)).1
  exact ⟨decode_encode .nop, decode_encode (.ulaw2lin 0xFF#8), decode_encode (.lin2alaw 0xFFFF#16),
    decode_encode (.pixYcc2rgb 16#8 128#8 128#8), decode_encode (.frmRgb2ycc 32#8 1#2),
    decode_encode (.frmYcc2rgb 24#8 0#2), instr?_of_illegal hreserved, instr?_of_illegal hunassigned⟩

end Sys2Proof.Machine
end
